-- ==== Sys2Proof/Word.lean ====
section
/-! DEFINITION. The bit-vector types of the block: bytes and 32-bit words. Everything is unsigned (00_scope.md R12). -/

namespace Sys2Proof

/-- "A byte is an unsigned 8-bit value" (00_scope.md R12). -/
abbrev Byte := BitVec 8

/-- A request word or a response word (30_encoding.md R58, R63). -/
abbrev Word := BitVec 32

/-- `zext_32` of a byte (00_scope.md R12). -/
abbrev Byte.zext32 (v : Byte) : Word := v.setWidth 32

end Sys2Proof
end

