-- ==== Sys2Proof/Config.lean ====
section
/-! DEFINITION. The constants of this hardware (00_scope.md R6 to R11) and the model's one free value. -/

namespace Sys2Proof

/-- The header sentinel, a constant of the block (00_scope.md R6). -/
def Config.header : Byte := 0xAF

/-- The transport's maximum frame size (00_scope.md R7). No rule of the machine reads it. -/
def Config.maxFrame : Nat := 260

/-- `MAX_PAYLOAD` of this hardware (00_scope.md R8). The machine reads `State.maxPayload`, which has this value after
reset; assumption log 1. -/
def Config.maxPayload : Fin 256 := 255

/-- `CNT_W`, the width of `checksum_error_count` (00_scope.md R9). -/
abbrev Config.cntW : Nat := 32

/-- `N_SESSIONS` of this hardware: the default of 00_scope.md R10. The machine reads the length of `State.slots`. -/
def Config.nSessions : Nat := 1

/-- FREE VALUE (assumption log 4; 10_state.md R29, 93_implementation_defined.md I5). What byte `i` of `BUF` of session
`sid` reads as when nothing has written it since the session's reset number `resets`. Nothing constrains it. -/
opaque Config.bufAfterReset (sid resets i : Nat) : Byte

end Sys2Proof
end

