-- ==== Sys2Proof/Syntax.lean ====
section
/-! DEFINITION. Requests as the host presents them, and the seven operations they stand for (30_encoding.md R58 to R62). -/

namespace Sys2Proof

/-- The output buffer `OUT` the caller supplies with a pack request: `cap` bytes (20_memory.md R40). Where it lives is
the caller's concern (R38): `base` is the address the caller gave it (assumption log 5). -/
structure OutBuf where
  base : Nat
  cap  : Nat
  deriving DecidableEq, Repr

/-- One request: the 32-bit request word and its side operands (30_encoding.md R58). `out.cap` is the operand `cap` of
`PACK_VAR`; for `PACK_FIXED` it is no operand, only the size of the buffer the caller supplied (41_encoder.md R92). -/
structure Request where
  word : Word
  seq  : List Byte
  out  : OutBuf
  deriving DecidableEq, Repr

/-- The operations, one constructor per row of the opcode table (30_encoding.md R59), each with its operands (R61). -/
inductive Instr where
  /-- `FEED(sid, b)` (42_parser.md R105). -/
  | feed (sid b : Byte)
  /-- `PACK_FIXED(c, d)` into `out` (41_encoder.md R91). -/
  | packFixed (c d : Byte) (out : OutBuf)
  /-- `PACK_VAR(c, p, cap)` into `out`, `cap = out.cap` (41_encoder.md R94). -/
  | packVar (c : Byte) (p : List Byte) (out : OutBuf)
  /-- `CHECKSUM(seq)` (40_checksum.md R82). -/
  | checksum (seq : List Byte)
  /-- `RD_CONNECTED(sid)` (43_accessors.md R132). -/
  | rdConnected (sid : Byte)
  /-- `RD_ERRCNT(sid)` (43_accessors.md R133). -/
  | rdErrcnt (sid : Byte)
  /-- `RD_LAST(sid)` (43_accessors.md R134). -/
  | rdLast (sid : Byte)
  deriving DecidableEq, Repr

end Sys2Proof
end

