-- ==== Sys2Proof/WellFormed.lean ====
section
/-! DEFINITION. Which operations a request can stand for. The types already bound every operand but the session number:
`c`, `d` and `b` are bytes, and `seq` and `cap` are unbounded (30_encoding.md R61). -/

namespace Sys2Proof

/-- The session number of a session operation; the stateless operations have none (30_encoding.md R59). -/
def Instr.session? : Instr → Option Byte
  | .feed sid _ => some sid
  | .packFixed _ _ _ => none
  | .packVar _ _ _ => none
  | .checksum _ => none
  | .rdConnected sid => some sid
  | .rdErrcnt sid => some sid
  | .rdLast sid => some sid

/-- `sid` "must be `< N_SESSIONS`" (30_encoding.md R61). -/
def Instr.wellFormed (nSessions : Nat) (i : Instr) : Bool :=
  match i.session? with
  | some sid => sid.toNat < nSessions
  | none => true

end Sys2Proof
end

