-- ==== Sys2Proof/Decode.lean ====
section
/-! DEFINITION. Decoding a request (30_encoding.md R62), the encoder beside it (R59, R60), the opcode table, and the
assembler forms of R67 as functions to requests. -/

namespace Sys2Proof

/-- Field `op`, bits 7:0 of the request word (30_encoding.md R58). -/
def Request.op (r : Request) : Byte := r.word.extractLsb' 0 8

/-- Field `a`, bits 15:8 (30_encoding.md R58). -/
def Request.a (r : Request) : Byte := r.word.extractLsb' 8 8

/-- Field `b`, bits 23:16 (30_encoding.md R58). -/
def Request.b (r : Request) : Byte := r.word.extractLsb' 16 8

/-- Field `sid`, bits 31:24 (30_encoding.md R58). -/
def Request.sid (r : Request) : Byte := r.word.extractLsb' 24 8

/-- Why a request is `ILLEGAL`: the three kinds of reserved request, in the order of 30_encoding.md R64. -/
inductive Illegal where
  /-- The op code is `0x00` or `0x08` to `0xFF`. -/
  | reservedOp
  /-- A field that must be 0 is not. -/
  | mustBeZero
  /-- A session operation names a session `>= N_SESSIONS`. -/
  | noSuchSession
  deriving DecidableEq, Repr

/-- Accept `i` if its must-be-zero fields are 0 (30_encoding.md R62). -/
def stateless (zeros : Bool) (i : Instr) : Except Illegal Instr :=
  if zeros then .ok i else .error .mustBeZero

/-- Accept `i`, a session operation on `sid`, if its must-be-zero fields are 0 and the session exists (30_encoding.md R62). -/
def onSession (nSessions : Nat) (sid : Byte) (zeros : Bool) (i : Instr) : Except Illegal Instr :=
  if zeros then if sid.toNat < nSessions then .ok i else .error .noSuchSession else .error .mustBeZero

/-- The case analysis of 30_encoding.md R62 on the fields of a request; `error` is its `ILLEGAL`. -/
def decodeFields (nSessions : Nat) (op a b sid : Byte) (seq : List Byte) (out : OutBuf) : Except Illegal Instr :=
  if op = 0x01 then onSession nSessions sid (b == 0) (.feed sid a)
  else if op = 0x02 then stateless (sid == 0) (.packFixed a b out)
  else if op = 0x03 then stateless (b == 0 && sid == 0) (.packVar a seq out)
  else if op = 0x04 then stateless (a == 0 && b == 0 && sid == 0) (.checksum seq)
  else if op = 0x05 then onSession nSessions sid (a == 0 && b == 0) (.rdConnected sid)
  else if op = 0x06 then onSession nSessions sid (a == 0 && b == 0) (.rdErrcnt sid)
  else if op = 0x07 then onSession nSessions sid (a == 0 && b == 0) (.rdLast sid)
  else .error .reservedOp

/-- The decoding of a request, "as a total function of the word" (30_encoding.md R62). Side operands an operation does not
take are ignored (assumption log 3). -/
def decode (nSessions : Nat) (r : Request) : Except Illegal Instr :=
  decodeFields nSessions r.op r.a r.b r.sid r.seq r.out

/-- A request word from its four fields (30_encoding.md R58). -/
def requestWord (sid b a op : Byte) : Word := ((sid ++ b : BitVec 16) ++ a : BitVec 24) ++ op

/-- What an encoded request carries as its output buffer when its operation has none. -/
def OutBuf.empty : OutBuf := ⟨0, 0⟩

/-- The request of an operation, by the formats of 30_encoding.md R60. -/
def encode : Instr → Request
  | .feed sid b => ⟨requestWord sid 0 b 0x01, [], OutBuf.empty⟩
  | .packFixed c d out => ⟨requestWord 0 d c 0x02, [], out⟩
  | .packVar c p out => ⟨requestWord 0 0 c 0x03, p, out⟩
  | .checksum seq => ⟨requestWord 0 0 0 0x04, seq, OutBuf.empty⟩
  | .rdConnected sid => ⟨requestWord sid 0 0 0x05, [], OutBuf.empty⟩
  | .rdErrcnt sid => ⟨requestWord sid 0 0 0x06, [], OutBuf.empty⟩
  | .rdLast sid => ⟨requestWord sid 0 0 0x07, [], OutBuf.empty⟩

/-- The side operands that go with a request word when the word alone is given (assumption log 3): no payload bytes, and
an output buffer of `MAX_FRAME` bytes at address 0. -/
def Request.ofWord (w : Word) : Request := ⟨w, [], ⟨0, Config.maxFrame⟩⟩

/-- The operation read from the low `nbits` bits of `w` in a block of this hardware's `N_SESSIONS`. -/
def decodeTableWord (nbits w : Nat) : Option Instr :=
  (decode Config.nSessions (Request.ofWord (BitVec.ofNat 32 (w % 2 ^ nbits)))).toOption

/-! The opcode table. -/

/-- One row of the opcode table: a word stands for the row's operation only if `word &&& mask = pattern`. -/
structure OpRow where
  mnemonic : String
  pattern  : Word
  mask     : Word
  deriving DecidableEq, Repr

/-- The row of each operation (opcode_table.json, the machine-readable copy of 30_encoding.md R59). -/
def Instr.row : Instr → OpRow
  | .feed _ _ => ⟨"FEED", 0x00000001, 0x00FF00FF⟩
  | .packFixed _ _ _ => ⟨"PACK_FIXED", 0x00000002, 0xFF0000FF⟩
  | .packVar _ _ _ => ⟨"PACK_VAR", 0x00000003, 0xFFFF00FF⟩
  | .checksum _ => ⟨"CHECKSUM", 0x00000004, 0xFFFFFFFF⟩
  | .rdConnected _ => ⟨"RD_CONNECTED", 0x00000005, 0x00FFFFFF⟩
  | .rdErrcnt _ => ⟨"RD_ERRCNT", 0x00000006, 0x00FFFFFF⟩
  | .rdLast _ => ⟨"RD_LAST", 0x00000007, 0x00FFFFFF⟩

/-! The assembler forms of 30_encoding.md R67: the word each syntax stands for, as the table of R67 writes it. -/

/-- `s << 24 | b << 16 | a << 8 | op`, with the fields as numbers. -/
def asmWord (s b a op : Byte) : Word :=
  s.zext32 <<< 24 ||| b.zext32 <<< 16 ||| a.zext32 <<< 8 ||| op.zext32

/-- `FEED b, sid=s`. -/
def asmFeed (b s : Byte) : Request := ⟨asmWord s 0 b 0x01, [], OutBuf.empty⟩

/-- `PACK_FIXED c, d`, into the caller's buffer `out`. -/
def asmPackFixed (c d : Byte) (out : OutBuf) : Request := ⟨asmWord 0 d c 0x02, [], out⟩

/-- `PACK_VAR c, p, cap=m`, into the caller's buffer at `base`. -/
def asmPackVar (c : Byte) (p : List Byte) (m base : Nat) : Request := ⟨asmWord 0 0 c 0x03, p, ⟨base, m⟩⟩

/-- `CHECKSUM q`. -/
def asmChecksum (q : List Byte) : Request := ⟨0x00000004, q, OutBuf.empty⟩

/-- `RD_CONNECTED sid=s`. -/
def asmRdConnected (s : Byte) : Request := ⟨asmWord s 0 0 0x05, [], OutBuf.empty⟩

/-- `RD_ERRCNT sid=s`. -/
def asmRdErrcnt (s : Byte) : Request := ⟨asmWord s 0 0 0x06, [], OutBuf.empty⟩

/-- `RD_LAST sid=s`. -/
def asmRdLast (s : Byte) : Request := ⟨asmWord s 0 0 0x07, [], OutBuf.empty⟩

/-- The pseudo-instruction `FEEDS xs, sid=s`: one `FEED` per byte, in order, on the same session (30_encoding.md R67). -/
def asmFeeds (xs : List Byte) (s : Byte) : List Request := xs.map (asmFeed · s)

/-- The pseudo-instruction `SEND c, p`: `PACK_VAR c, p, cap=len(p)+4` (30_encoding.md R67). -/
def asmSend (c : Byte) (p : List Byte) (base : Nat) : Request := asmPackVar c p (p.length + 4) base

end Sys2Proof
end

