-- ==== Sys2Proof/Machine/State.lean ====
section
/-! DEFINITION. The state of the machine, its reset value, and the reasons a step can stop. -/

namespace Sys2Proof.Machine

/-- The parser state (10_state.md R17). -/
inductive ParserState where
  | waitHeader
  | readLength
  | readCommand
  | readPayload
  | readChecksum
  deriving DecidableEq, Repr

/-- Sparse bytes by address, each address at most once, in rising order. An address that is not listed holds no written
byte: for `BUF`, not written since the session's reset (10_state.md R16 writes `none`); for `OUT`, never written by the
block (assumption log 5). -/
abbrev Memory := List Host.Cell

/-- The canonical form of a memory: addresses strictly rising. A listed byte is a written byte, which is never what an
unlisted address reads as. -/
abbrev Memory.wf (m : Memory) : Prop := m.Pairwise fun x y => x.1 < y.1

/-- The registers of one session (10_state.md R16). -/
structure Session where
  /-- `state` -/
  state : ParserState
  /-- `pending_length` -/
  pendingLength : Byte
  /-- `pending_command` -/
  pendingCommand : Byte
  /-- `write_index` -/
  writeIndex : Byte
  /-- `checksum_error_count` -/
  checksumErrorCount : BitVec Config.cntW
  /-- `connected` -/
  connected : Bool
  /-- `BUF`, indices 0 to `MAX_PAYLOAD - 1` (20_memory.md R36) -/
  buf : Memory
  deriving DecidableEq, Repr

/-- A session after reset (10_state.md R29). `BUF` is unspecified: no byte of it is listed. -/
def Session.reset : Session where
  state := .waitHeader
  pendingLength := 0x00
  pendingCommand := 0x00
  writeIndex := 0
  checksumErrorCount := 0
  connected := false
  buf := []

/-- One of the `N_SESSIONS` sessions. `resets` counts the resets it has taken (the model's own field, assumption log 4):
while it is 0 the session "has no defined state" (70_reset_and_hazards.md R169) and `session` means nothing. -/
structure Slot where
  resets  : Nat
  session : Session
  deriving DecidableEq, Repr

/-- The kind of a response (30_encoding.md R63). `NoEvent` and `Ok` are one kind. -/
inductive ResponseKind where
  /-- `NoEvent` / `Ok`, code 0x00 -/
  | ok
  /-- `FrameReady`, code 0x01 -/
  | frameReady
  /-- `ChecksumError`, code 0x02 -/
  | checksumError
  /-- `SizeExceeded`, code 0x10 -/
  | sizeExceeded
  /-- `CapacityViolation`, code 0x11 -/
  | capacityViolation
  /-- `IllegalRequest`, code 0xFF -/
  | illegalRequest
  deriving DecidableEq, Repr

/-- A response: kind, word and bytes (30_encoding.md R63). -/
structure Response where
  kind  : ResponseKind
  word  : Word
  bytes : List Byte
  deriving DecidableEq, Repr

/-- What the host does to the block. -/
inductive HostAction where
  /-- Presents one request (30_encoding.md R58). -/
  | request (r : Request)
  /-- Presents several requests that overlap in time (20_memory.md R44; assumption log 7). -/
  | concurrent (rs : List Request)
  /-- `RESET(sid)` (70_reset_and_hazards.md R166). -/
  | reset (sid : Nat)
  deriving DecidableEq, Repr

/-- The machine. -/
structure State where
  /-- `MAX_PAYLOAD`, fixed when the block is built (00_scope.md R8; assumption log 1). -/
  maxPayload : Fin 256
  /-- The sessions; their number is `N_SESSIONS` (00_scope.md R10). -/
  slots : List Slot
  /-- The callers' output buffers, by address (20_memory.md R40; assumption log 5). -/
  out : Memory
  /-- What the host has put to the block and the block has not performed yet, oldest first (assumption log 2). -/
  inbox : List HostAction
  /-- The responses delivered so far, oldest first (30_encoding.md R63; assumption log 2). -/
  responses : List Response
  deriving DecidableEq, Repr

/-- `N_SESSIONS` (00_scope.md R10). -/
def State.nSessions (s : State) : Nat := s.slots.length

/-- The machine after power-on: `RESET(sid)` applied to every session (70_reset_and_hazards.md R166). -/
def State.reset : State where
  maxPayload := Config.maxPayload
  slots := List.replicate Config.nSessions ⟨1, Session.reset⟩
  out := []
  inbox := []
  responses := []

/-- Why the machine faults. -/
inductive Fault where
  /-- Raised by a `FEED` that would write or read `BUF` at an index `>= MAX_PAYLOAD`, which does not exist
  (20_memory.md R36). No session that keeps 10_state.md R28 raises it. SAFE: the machine stops (assumption log 6). -/
  | bufIndexOutOfRange
  deriving DecidableEq, Repr

/-- Why the machine refuses. -/
inductive Refusal where
  /-- An operation without a meaning in the model; raised by no arm of this model. SAFE. -/
  | notModelled (mnemonic : String)
  /-- Raised by a session operation on a session that has not been reset: "refuses operations on a session that has not
  been reset" (70_reset_and_hazards.md R169). SAFE. -/
  | sessionNotReset
  /-- Raised by `PACK_FIXED` when the caller's buffer has fewer than 5 bytes: "outside the contract, and a model gives it
  no meaning (refuses it)" (41_encoder.md R92). SAFE. -/
  | packFixedOutTooSmall
  /-- Raised by requests that overlap in time when two are operations on one session (20_memory.md R44). SAFE. -/
  | concurrentSession
  /-- Raised by requests that overlap in time when two are packs whose `OUT` buffers overlap (20_memory.md R44). SAFE. -/
  | overlappingOut
  /-- Raised by `RESET(sid)` when the block has no session `sid`, which the spec gives no meaning. SAFE (assumption log 8). -/
  | resetNoSuchSession
  deriving DecidableEq, Repr

/-- The outcome of an operation or a step. -/
abbrev Result := Host.Outcome State Fault Refusal

end Sys2Proof.Machine
end

