-- ==== Sys2Proof/Machine/Ops.lean ====
section
/-! DEFINITION. The operations every meaning is built from: byte memories, `BUF`, `OUT`, the checksum, responses, and the
host's session reset. The block takes no exceptions (60_exceptions.md R143): a condition is reported by `respond`. -/

namespace Sys2Proof.Machine

/-! Memories. -/

/-- The byte at an address, if one is listed. -/
def memRead : Memory → Nat → Option Byte
  | [], _ => none
  | (b, v) :: m, a => if a = b then some v else memRead m a

/-- `MemWrite(a, 1, v)` (00_scope.md R13), keeping the canonical form. -/
def memWrite : Memory → Nat → Byte → Memory
  | [], a, v => [(a, v)]
  | (b, w) :: m, a, v =>
    if a < b then (a, v) :: (b, w) :: m
    else if a = b then (a, v) :: m
    else (b, w) :: memWrite m a v

/-- `MemWrite(base + i, 1, vs[i])` for every `i`, in order. -/
def memWriteBytes : Memory → Nat → List Byte → Memory
  | m, _, [] => m
  | m, base, v :: vs => memWriteBytes (memWrite m base v) (base + 1) vs

/-! `BUF` (20_memory.md R36). -/

/-- `BUF[i]`: the byte written there, or the free value of a byte nothing has written since reset (10_state.md R29). -/
def bufByte (free : Nat → Byte) (m : Memory) (i : Nat) : Byte := (memRead m i).getD (free i)

/-- `BUF[0..n)` (42_parser.md R114). -/
def bufBytes (free : Nat → Byte) (m : Memory) (n : Nat) : List Byte := (List.range n).map (bufByte free m)

/-- `BUF[0..n)`, when all of its indices exist (20_memory.md R36). -/
def bufRead (maxPayload : Fin 256) (free : Nat → Byte) (m : Memory) (n : Nat) : Except Fault (List Byte) :=
  if n ≤ maxPayload.val then .ok (bufBytes free m n) else .error .bufIndexOutOfRange

/-- `MemWrite(BUF:i, 1, v)`, when the index exists (20_memory.md R36). -/
def bufWrite (maxPayload : Fin 256) (m : Memory) (i : Nat) (v : Byte) : Except Fault Memory :=
  if i < maxPayload.val then .ok (memWrite m i v) else .error .bufIndexOutOfRange

/-! The checksum (00_scope.md R14, 40_checksum.md R81, R83). -/

/-- `xor_reduce`, "starting accumulator at zero" (00_scope.md R14). -/
def xorReduce (q : List Byte) : Byte := q.foldl (· ^^^ ·) 0x00

/-- `len(p)[7:0]` (40_checksum.md R83). -/
def lengthByte (p : List Byte) : Byte := BitVec.ofNat 8 p.length

/-- A frame with length byte `l`, command `c`, payload `p` and the checksum of all bytes before it (30_encoding.md R50). -/
def frameWith (l c : Byte) (p : List Byte) : List Byte :=
  ([Config.header, l, c] ++ p) ++ [xorReduce ([Config.header, l, c] ++ p)]

/-- The frame of command `c` and payload `p` (41_encoder.md R94). -/
def frame (c : Byte) (p : List Byte) : List Byte := frameWith (lengthByte p) c p

/-! Responses (30_encoding.md R63, R66). -/

/-- The `kind` code of a response (30_encoding.md R63). -/
def ResponseKind.code : ResponseKind → Byte
  | .ok => 0x00
  | .frameReady => 0x01
  | .checksumError => 0x02
  | .sizeExceeded => 0x10
  | .capacityViolation => 0x11
  | .illegalRequest => 0xFF

/-- `zext_32(pending_length) << 8 | zext_32(pending_command)` (30_encoding.md R63, R66). -/
def lengthCommandWord (l c : Byte) : Word := l.zext32 <<< 8 ||| c.zext32

/-- `Ok` with a word and bytes. -/
def okResponse (w : Word) (bytes : List Byte) : Response := ⟨.ok, w, bytes⟩

/-- `NoEvent`: word 0, no bytes (30_encoding.md R66). -/
def noEvent : Response := ⟨.ok, 0, []⟩

/-- `FrameReady(command, payload)` for a pending length `l` (30_encoding.md R63). -/
def frameReady (l c : Byte) (p : List Byte) : Response := ⟨.frameReady, lengthCommandWord l c, p⟩

/-- A response that carries only its kind: `ChecksumError` and the error conditions (30_encoding.md R63). -/
def bare (k : ResponseKind) : Response := ⟨k, 0, []⟩

/-- Delivers a response: "Every request gets exactly one response" (30_encoding.md R63). -/
def respond (r : Response) (s : State) : State := { s with responses := s.responses ++ [r] }

/-! The parser state's binary encoding (10_state.md R17), which no output shows. -/

/-- The code of a parser state (10_state.md R17). -/
def ParserState.code : ParserState → BitVec 3
  | .waitHeader => 0
  | .readLength => 1
  | .readCommand => 2
  | .readPayload => 3
  | .readChecksum => 4

/-! `OUT` (20_memory.md R40). -/

/-- Writes a frame to `OUT[0..L)` of the caller's buffer, and answers `Ok` with the frame's length and the frame
(20_memory.md R40, 30_encoding.md R66). -/
def emitFrame (o : OutBuf) (f : List Byte) (s : State) : State :=
  respond (okResponse (BitVec.ofNat 32 f.length) f) { s with out := memWriteBytes s.out o.base f }

/-! Session reset (70_reset_and_hazards.md R166). -/

/-- A session's slot after a reset: every register at its value of 10_state.md R29. -/
def Slot.afterReset (sl : Slot) : Slot := ⟨sl.resets + 1, Session.reset⟩

/-- `RESET(sid)`: only the session changes; there is no response (70_reset_and_hazards.md R166, R167). -/
def resetSession (sid : Nat) (s : State) : Result :=
  if sid < s.nSessions then .next { s with slots := s.slots.modify sid Slot.afterReset }
  else .refused .resetNoSuchSession

end Sys2Proof.Machine
end

