-- ==== Sys2Proof/Machine/Operands.lean ====
section
/-! DEFINITION. The operands of an operation in a state: its session, and its output buffer. -/

namespace Sys2Proof.Machine

/-- Session `sid`, if the block has it and it has been reset (70_reset_and_hazards.md R169). -/
def liveSlot? (sid : Byte) (s : State) : Option Slot :=
  match s.slots[sid.toNat]? with
  | some sl => if sl.resets = 0 then none else some sl
  | none => none

/-- Runs a session operation on its session. A session number the block does not have is a reserved request, answered
`IllegalRequest` with no state change (30_encoding.md R64); a session never reset is refused (70_reset_and_hazards.md R169). -/
def withSession (sid : Byte) (s : State) (k : Slot → Result) : Result :=
  match s.slots[sid.toNat]? with
  | some sl => if sl.resets = 0 then .refused .sessionNotReset else k sl
  | none => .next (respond (bare .illegalRequest) s)

/-- Writes session `sid`'s registers. -/
def setSession (sid : Byte) (x : Session) (s : State) : State :=
  { s with slots := s.slots.modify sid.toNat fun sl => { sl with session := x } }

/-- The free values of the unwritten `BUF` bytes of a session (assumption log 4). -/
def freeBuf (sid : Byte) (sl : Slot) : Nat → Byte := Config.bufAfterReset sid.toNat sl.resets

/-- `BUF[0..pending_length)` of a session, as the ReadChecksum step reads it (42_parser.md R114). -/
def pendingPayload (sid : Byte) (sl : Slot) : List Byte :=
  bufBytes (freeBuf sid sl) sl.session.buf sl.session.pendingLength.toNat

/-- The output buffer an operation may write (20_memory.md R37). -/
def outBuf? : Instr → Option OutBuf
  | .feed _ _ => none
  | .packFixed _ _ o => some o
  | .packVar _ _ o => some o
  | .checksum _ => none
  | .rdConnected _ => none
  | .rdErrcnt _ => none
  | .rdLast _ => none

/-- Two output buffers share a byte. -/
def buffersOverlap (o o' : OutBuf) : Bool :=
  o.base < o'.base + o'.cap && o'.base < o.base + o.cap && 0 < o.cap && 0 < o'.cap

/-- Both are operations on one session. -/
def sharesSession (i j : Instr) : Bool :=
  match i.session?, j.session? with
  | some x, some y => x == y
  | _, _ => false

/-- Both are packs, and their output buffers overlap. -/
def sharesOut (i j : Instr) : Bool :=
  match outBuf? i, outBuf? j with
  | some x, some y => buffersOverlap x y
  | _, _ => false

end Sys2Proof.Machine
end

