-- ==== Sys2Proof/Machine/Flags.lean ====
section
/-! DEFINITION. The block's one status flag, `connected`, and the error counter, both written only by the ReadChecksum step
(10_state.md R21, R23). -/

namespace Sys2Proof.Machine

/-- A checksum match sets `connected` (42_parser.md R115). -/
def recordMatch (x : Session) : Session := { x with connected := true }

/-- A mismatch clears `connected` and counts, modulo `2^CNT_W` (42_parser.md R116, 10_state.md R21). -/
def recordMismatch (x : Session) : Session :=
  { x with connected := false, checksumErrorCount := x.checksumErrorCount + 1 }

/-- `zext_32(connected)` (43_accessors.md R132). -/
def connectedWord (x : Session) : Word := if x.connected then 1 else 0

end Sys2Proof.Machine
end

