-- ==== Sys2Proof/Machine/Accessors.lean ====
section
/-! DEFINITION. The session accessors (43_accessors.md): read-only. -/

namespace Sys2Proof.Machine

/-- Answers `Ok` with a word of the session, and writes nothing (43_accessors.md R131). -/
def readSession (sid : Byte) (w : Session → Word) (s : State) : Result :=
  withSession sid s fun sl => .next (respond (okResponse (w sl.session) []) s)

/-- `RD_CONNECTED` (43_accessors.md R132). -/
def execRdConnected (sid : Byte) (s : State) : Result := readSession sid connectedWord s

/-- `RD_ERRCNT` (43_accessors.md R133). -/
def execRdErrcnt (sid : Byte) (s : State) : Result := readSession sid (fun x => x.checksumErrorCount) s

/-- `RD_LAST` (43_accessors.md R134). -/
def execRdLast (sid : Byte) (s : State) : Result :=
  readSession sid (fun x => lengthCommandWord x.pendingLength x.pendingCommand) s

end Sys2Proof.Machine
end

