-- ==== Sys2Proof/Machine/Checksum.lean ====
section
/-! DEFINITION. The checksum generator (40_checksum.md). -/

namespace Sys2Proof.Machine

/-- `CHECKSUM` (40_checksum.md R82). -/
def execChecksum (seq : List Byte) (s : State) : Result :=
  .next (respond (okResponse (xorReduce seq).zext32 []) s)

end Sys2Proof.Machine
end

