-- ==== Sys2Proof/Machine/Encoder.lean ====
section
/-! DEFINITION. The frame encapsulator (41_encoder.md). Neither operation touches a session. -/

namespace Sys2Proof.Machine

/-- `PACK_FIXED` (41_encoder.md R91): a 5-byte frame with length byte 1. A buffer of fewer than 5 bytes is refused (R92). -/
def execPackFixed (c d : Byte) (o : OutBuf) (s : State) : Result :=
  if o.cap < 5 then .refused .packFixedOutTooSmall
  else .next (emitFrame o [Config.header, 0x01, c, d, Config.header ^^^ 0x01 ^^^ c ^^^ d] s)

/-- `PACK_VAR` (41_encoder.md R94): the size check (R95), then the capacity check (R96), then the frame. -/
def execPackVar (c : Byte) (p : List Byte) (o : OutBuf) (s : State) : Result :=
  if s.maxPayload.val < p.length then .next (respond (bare .sizeExceeded) s)
  else if o.cap < p.length + 4 then .next (respond (bare .capacityViolation) s)
  else .next (emitFrame o (frame c p) s)

end Sys2Proof.Machine
end

