-- ==== Sys2Proof/Machine/Parser.lean ====
section
/-! DEFINITION. The incremental parser (42_parser.md): one definition per state of the transition table, and `FEED`. -/

namespace Sys2Proof.Machine

/-- A transition: the session's registers after it and the response. -/
abbrev Transition := Session × Response

/-- `WaitHeader` (42_parser.md R107, R108). -/
def waitHeaderStep (b : Byte) (x : Session) : Transition :=
  if b = Config.header then ({ x with writeIndex := 0, state := .readLength }, noEvent) else (x, noEvent)

/-- `ReadLength` (42_parser.md R109, R110). -/
def readLengthStep (maxPayload : Fin 256) (b : Byte) (x : Session) : Transition :=
  if b.toNat ≤ maxPayload.val then
    ({ x with pendingLength := b, writeIndex := 0, state := .readCommand }, noEvent)
  else ({ x with state := .waitHeader }, noEvent)

/-- `ReadCommand` (42_parser.md R111, R112). -/
def readCommandStep (b : Byte) (x : Session) : Transition :=
  ({ x with pendingCommand := b, state := if x.pendingLength = 0 then .readChecksum else .readPayload }, noEvent)

/-- `ReadPayload` (42_parser.md R113). -/
def readPayloadStep (maxPayload : Fin 256) (b : Byte) (x : Session) : Except Fault Transition :=
  match bufWrite maxPayload x.buf x.writeIndex.toNat b with
  | .error f => .error f
  | .ok buf =>
    .ok ({ x with
            buf := buf
            writeIndex := x.writeIndex + 1
            state := if x.writeIndex + 1 = x.pendingLength then .readChecksum else .readPayload }, noEvent)

/-- The outcome of comparing the received checksum `b` with `chk`, for the payload `p` (42_parser.md R115, R116). -/
def checksumOutcome (chk : Byte) (p : List Byte) (b : Byte) (x : Session) : Transition :=
  if b = chk then
    ({ recordMatch x with state := .waitHeader }, frameReady x.pendingLength x.pendingCommand p)
  else ({ recordMismatch x with state := .waitHeader }, bare .checksumError)

/-- The checksum the parser recomputes, for the payload `p` (42_parser.md R114). -/
def expectedChecksum (x : Session) (p : List Byte) : Byte :=
  xorReduce ([Config.header, x.pendingLength, x.pendingCommand] ++ p)

/-- `ReadChecksum` (42_parser.md R114). -/
def readChecksumStep (maxPayload : Fin 256) (free : Nat → Byte) (b : Byte) (x : Session) : Except Fault Transition :=
  match bufRead maxPayload free x.buf x.pendingLength.toNat with
  | .error f => .error f
  | .ok p => .ok (checksumOutcome (expectedChecksum x p) p b x)

/-- One transition of the parser (42_parser.md R105, R117). -/
def feedStep (maxPayload : Fin 256) (free : Nat → Byte) (b : Byte) (x : Session) : Except Fault Transition :=
  match x.state with
  | .waitHeader => .ok (waitHeaderStep b x)
  | .readLength => .ok (readLengthStep maxPayload b x)
  | .readCommand => .ok (readCommandStep b x)
  | .readPayload => readPayloadStep maxPayload b x
  | .readChecksum => readChecksumStep maxPayload free b x

/-- `FEED` (42_parser.md R105). -/
def execFeed (sid b : Byte) (s : State) : Result :=
  withSession sid s fun sl =>
    match feedStep s.maxPayload (freeBuf sid sl) b sl.session with
    | .error f => .fault f
    | .ok t => .next (respond t.2 (setSession sid t.1 s))

end Sys2Proof.Machine
end

