-- ==== Sys2Proof/Machine/Dispatch.lean ====
section
/-! DEFINITION. The dispatch of an operation to its meaning. -/

namespace Sys2Proof.Machine

/-- What an operation does. -/
def exec (i : Instr) (s : State) : Host.Outcome State Fault Refusal :=
  match i with
  | .feed sid b => Sys2Proof.Machine.execFeed sid b s
  | .packFixed c d out => Sys2Proof.Machine.execPackFixed c d out s
  | .packVar c p out => Sys2Proof.Machine.execPackVar c p out s
  | .checksum seq => Sys2Proof.Machine.execChecksum seq s
  | .rdConnected sid => Sys2Proof.Machine.execRdConnected sid s
  | .rdErrcnt sid => Sys2Proof.Machine.execRdErrcnt sid s
  | .rdLast sid => Sys2Proof.Machine.execRdLast sid s

end Sys2Proof.Machine
end

