-- ==== Sys2Proof/Machine/Interface.lean ====
section
/-! DEFINITION. The request interface: what the block does with each host action (30_encoding.md section 2). -/

namespace Sys2Proof.Machine

/-- Serves one request: what decodes runs; what does not is answered `IllegalRequest` with no state change
(30_encoding.md R62, R64). -/
def serveRequest (r : Request) (s : State) : Result :=
  match decode s.nSessions r with
  | .ok i => exec i s
  | .error _ => .next (respond (bare .illegalRequest) s)

/-- Serves requests one after another, stopping at the first fault or refusal. -/
def serveAll : List Request → State → Result
  | [], s => .next s
  | r :: rs, s =>
    match serveRequest r s with
    | .next t => serveAll rs t
    | .fault f => .fault f
    | .refused e => .refused e

/-- Some two members, at different places of the list, are related by `p`. -/
def anyPair (p : Instr → Instr → Bool) : List Instr → Bool
  | [] => false
  | i :: is => is.any (p i) || anyPair p is

/-- Why overlapping operations have no meaning, if they have none (20_memory.md R44). -/
def overlapRefusal (is : List Instr) : Option Refusal :=
  if anyPair sharesSession is then some .concurrentSession
  else if anyPair sharesOut is then some .overlappingOut
  else none

/-- Serves requests that overlap in time. Two operations on one session, or two packs with overlapping buffers, are refused
(20_memory.md R44). Otherwise the requests are independent, and are served in the order listed (assumption log 7). -/
def serveConcurrent (rs : List Request) (s : State) : Result :=
  match overlapRefusal (rs.filterMap fun r => (decode s.nSessions r).toOption) with
  | some e => .refused e
  | none => serveAll rs s

/-- Performs one host action. -/
def perform (a : HostAction) (s : State) : Result :=
  match a with
  | .request r => serveRequest r s
  | .concurrent rs => serveConcurrent rs s
  | .reset sid => resetSession sid s

/-- One step: the oldest pending host action is performed. With none pending the block idles, and its state persists
unchanged (20_memory.md R49, 60_exceptions.md R156). -/
def nextAction (s : State) : Result :=
  match s.inbox with
  | [] => .next s
  | a :: rest => perform a { s with inbox := rest }

end Sys2Proof.Machine
end

