-- ==== Sys2Proof/Machine/Step.lean ====
section
/-! DEFINITION. The step function, and how the host presents a request word. -/

namespace Sys2Proof.Machine

/-- One step of the machine. -/
def step (s : State) : Host.Outcome State Fault Refusal := nextAction s

/-- The state with the request of the low `nbits` bits of `w` presented first, so that the next step serves it. The block
fetches nothing (10_state.md R22): a request is presented by the host (assumption logs 2 and 3). -/
def State.withFetchWord (s : State) (nbits w : Nat) : State :=
  { s with inbox := .request (Request.ofWord (BitVec.ofNat 32 (w % 2 ^ nbits))) :: s.inbox }

end Sys2Proof.Machine
end

