-- ==== Sys2Proof/Safety.lean ====
section
/-! DEFINITION. The terms claims are stated in: the invariant of 10_state.md R28, runs of operations, the outcome history of
42_parser.md R126, and the running-XOR parser that 40_checksum.md R84 allows a circuit to be. -/

namespace Sys2Proof.Machine

/-! The invariant. -/

/-- `BUF[0..n)` were all written. -/
def Written (m : Memory) (n : Nat) : Prop := ∀ i, i < n → memRead m i ≠ none

/-- What the parser state promises about the other registers (10_state.md R28). The `readPayload` case adds that the bytes
received so far are written, which makes the invariant inductive. -/
def StatePromise (x : Session) : Prop :=
  match x.state with
  | .waitHeader => True
  | .readLength => x.writeIndex = 0
  | .readCommand => x.writeIndex = 0
  | .readPayload => x.writeIndex.toNat < x.pendingLength.toNat ∧ Written x.buf x.writeIndex.toNat
  | .readChecksum => x.writeIndex = x.pendingLength ∧ Written x.buf x.pendingLength.toNat

/-- The session invariant (10_state.md R28), with the shape of `BUF` (20_memory.md R36). -/
def SessionInv (maxPayload : Fin 256) (x : Session) : Prop :=
  x.pendingLength.toNat ≤ maxPayload.val ∧ x.writeIndex.toNat ≤ maxPayload.val ∧ StatePromise x ∧
  ∀ i, maxPayload.val ≤ i → memRead x.buf i = none

/-- The machine's invariant: every memory is canonical, and every session that has been reset satisfies its invariant. -/
def StateInv (s : State) : Prop :=
  s.out.wf ∧ (∀ sl ∈ s.slots, sl.session.buf.wf) ∧
  ∀ sl ∈ s.slots, sl.resets ≠ 0 → SessionInv s.maxPayload sl.session

/-! Runs. -/

/-- Runs operations in order, stopping at the first fault or refusal. -/
def runInstrs : List Instr → State → Result
  | [], s => .next s
  | i :: is, s =>
    match exec i s with
    | .next t => runInstrs is t
    | .fault f => .fault f
    | .refused e => .refused e

/-- Feeds bytes to session `sid`, in order. -/
def runFeeds (sid : Byte) (bs : List Byte) (s : State) : Result := runInstrs (bs.map (Instr.feed sid)) s

/-- The registers a session has when it has received a whole frame `[0xAF, l, c] ++ p ++ [k]`, before the outcome of the
checksum is recorded (42_parser.md R107 to R114). -/
def received (x : Session) (l c : Byte) (p : List Byte) : Session :=
  { x with state := .waitHeader, pendingLength := l, pendingCommand := c, writeIndex := l,
           buf := memWriteBytes x.buf 0 p }

/-- The encoder, in `s`, answers `f` for command `c` and payload `p`: the bytes `PACK_VAR c, p` returns, or
`PACK_FIXED c, d` when `p = [d]` (41_encoder.md R91, R94). -/
def EncoderEmits (s : State) (c : Byte) (p f : List Byte) : Prop :=
  (∃ o t w, exec (.packVar c p o) s = .next t ∧ t.responses = s.responses ++ [⟨.ok, w, f⟩]) ∨
  (∃ d o t w, p = [d] ∧ exec (.packFixed c d o) s = .next t ∧ t.responses = s.responses ++ [⟨.ok, w, f⟩])

/-- The operation is `PACK_FIXED` or `PACK_VAR`, with output buffer `o`. -/
def IsPack (i : Instr) (o : OutBuf) : Prop := (∃ c d, i = .packFixed c d o) ∨ ∃ c p, i = .packVar c p o

/-- The operation is one of the three accessors of session `sid` (43_accessors.md R131). -/
def IsAccessor (i : Instr) (sid : Byte) : Prop := i = .rdConnected sid ∨ i = .rdErrcnt sid ∨ i = .rdLast sid

/-- `RD_LAST sid` answers the word `w` in `s`, and changes nothing else (43_accessors.md R134). -/
def RdLastReads (sid : Byte) (s : State) (w : Word) : Prop := exec (.rdLast sid) s = .next (respond ⟨.ok, w, []⟩ s)

/-! Histories. -/

/-- The response reports a checksum mismatch. -/
def isMismatch (r : Response) : Bool := r.kind == .checksumError

/-- How many of the responses report a checksum mismatch. -/
def mismatches (rs : List Response) : Nat := rs.countP isMismatch

/-- The outcome of the last event among the responses, or `c` if there is none (42_parser.md R126). -/
def lastOutcome (c : Bool) (rs : List Response) : Bool :=
  rs.foldl (fun acc r =>
    match r.kind with
    | .frameReady => true
    | .checksumError => false
    | .ok => acc
    | .sizeExceeded => acc
    | .capacityViolation => acc
    | .illegalRequest => acc) c

/-- Of the responses `rs` to the operations `is`, those to operations on session `sid`. -/
def responsesTo (sid : Byte) (is : List Instr) (rs : List Response) : List Response :=
  ((is.zip rs).filter fun x => x.1.session? == some sid).map Prod.snd

/-! Reserved requests. -/

/-- The reserved requests of 30_encoding.md R64, by the fields of the request word. -/
def Reserved (nSessions : Nat) (w : Word) : Prop :=
  let op := w.extractLsb' 0 8; let a := w.extractLsb' 8 8; let b := w.extractLsb' 16 8; let sid := w.extractLsb' 24 8
  (op = 0x00 ∨ 0x08 ≤ op.toNat) ∨
  (op = 0x01 ∧ (b ≠ 0 ∨ nSessions ≤ sid.toNat)) ∨
  (op = 0x02 ∧ sid ≠ 0) ∨
  (op = 0x03 ∧ (b ≠ 0 ∨ sid ≠ 0)) ∨
  (op = 0x04 ∧ (a ≠ 0 ∨ b ≠ 0 ∨ sid ≠ 0)) ∨
  ((op = 0x05 ∨ op = 0x06 ∨ op = 0x07) ∧ (a ≠ 0 ∨ b ≠ 0 ∨ nSessions ≤ sid.toNat))

/-! The parser with a running XOR (40_checksum.md R84). -/

/-- A run of the parser over a byte stream: the session after it and the responses. -/
def feedList (maxPayload : Fin 256) (free : Nat → Byte) : List Byte → Session → Except Fault (Session × List Response)
  | [], x => .ok (x, [])
  | b :: bs, x =>
    match feedStep maxPayload free b x with
    | .error f => .error f
    | .ok (y, r) =>
      match feedList maxPayload free bs y with
      | .error f => .error f
      | .ok (z, rs) => .ok (z, r :: rs)

/-- A session with the accumulator a circuit may keep beside it. -/
structure AccSession where
  session : Session
  acc     : Byte
  deriving DecidableEq, Repr

/-- The transition of a circuit that "folds in the header, length, command and payload bytes as they arrive and compares at
the checksum byte" (40_checksum.md R84). The accumulator starts from zero at each header. -/
def accStep (maxPayload : Fin 256) (free : Nat → Byte) (b : Byte) (y : AccSession) :
    Except Fault (AccSession × Response) :=
  match y.session.state with
  | .waitHeader => .ok (⟨(waitHeaderStep b y.session).1, 0x00 ^^^ b⟩, (waitHeaderStep b y.session).2)
  | .readLength => .ok (⟨(readLengthStep maxPayload b y.session).1, y.acc ^^^ b⟩, (readLengthStep maxPayload b y.session).2)
  | .readCommand => .ok (⟨(readCommandStep b y.session).1, y.acc ^^^ b⟩, (readCommandStep b y.session).2)
  | .readPayload =>
    match readPayloadStep maxPayload b y.session with
    | .error f => .error f
    | .ok (x, r) => .ok (⟨x, y.acc ^^^ b⟩, r)
  | .readChecksum =>
    match bufRead maxPayload free y.session.buf y.session.pendingLength.toNat with
    | .error f => .error f
    | .ok p => .ok (⟨(checksumOutcome y.acc p b y.session).1, y.acc⟩, (checksumOutcome y.acc p b y.session).2)

/-- A run of the circuit with a running XOR over a byte stream. -/
def accList (maxPayload : Fin 256) (free : Nat → Byte) :
    List Byte → AccSession → Except Fault (AccSession × List Response)
  | [], y => .ok (y, [])
  | b :: bs, y =>
    match accStep maxPayload free b y with
    | .error f => .error f
    | .ok (z, r) =>
      match accList maxPayload free bs z with
      | .error f => .error f
      | .ok (u, rs) => .ok (u, r :: rs)

end Sys2Proof.Machine
end

