-- ==== Sys2Proof/Certificates/Slice0/Obligations.lean ====
section
/-! DEFINITION. The statements about this machine that are to be proved. Each docstring names the rule it formalises. -/

open Sys2Proof Sys2Proof.Machine

/-! ## Encodings -/

/-- Decoding the encoded request of a well-formed operation gives the operation back, with every operand
(30_encoding.md section 2; the encoder is the model's). -/
def Obligations.DecodeOfEncodeIsIdentity : Prop :=
  ∀ (n : Nat) (i : Instr), i.wellFormed n = true → decode n (encode i) = .ok i

/-- A request word has one meaning: what a request decodes to is well formed and encodes to the same word
(30_encoding.md section 2). -/
def Obligations.DecodedWordIsTheEncodedWord : Prop :=
  ∀ (n : Nat) (r : Request) (i : Instr),
    decode n r = .ok i → (encode i).word = r.word ∧ i.wellFormed n = true

/-- 30_encoding.md R62, guard by guard; every failed guard and every other op code is ILLEGAL. -/
def Obligations.DecodeFollowsTheCaseTable : Prop :=
  ∀ (n : Nat) (word : Word) (seq : List Byte) (out : OutBuf),
    let op := word.extractLsb' 0 8
    let a := word.extractLsb' 8 8
    let b := word.extractLsb' 16 8
    let sid := word.extractLsb' 24 8
    let r : Request := ⟨word, seq, out⟩
    (op = 0x01 ∧ b = 0 ∧ sid.toNat < n → decode n r = .ok (.feed sid a)) ∧
    (op = 0x02 ∧ sid = 0 → decode n r = .ok (.packFixed a b out)) ∧
    (op = 0x03 ∧ b = 0 ∧ sid = 0 → decode n r = .ok (.packVar a seq out)) ∧
    (op = 0x04 ∧ a = 0 ∧ b = 0 ∧ sid = 0 → decode n r = .ok (.checksum seq)) ∧
    (op = 0x05 ∧ a = 0 ∧ b = 0 ∧ sid.toNat < n → decode n r = .ok (.rdConnected sid)) ∧
    (op = 0x06 ∧ a = 0 ∧ b = 0 ∧ sid.toNat < n → decode n r = .ok (.rdErrcnt sid)) ∧
    (op = 0x07 ∧ a = 0 ∧ b = 0 ∧ sid.toNat < n → decode n r = .ok (.rdLast sid)) ∧
    (¬(op = 0x01 ∧ b = 0 ∧ sid.toNat < n) → ¬(op = 0x02 ∧ sid = 0) → ¬(op = 0x03 ∧ b = 0 ∧ sid = 0) →
      ¬(op = 0x04 ∧ a = 0 ∧ b = 0 ∧ sid = 0) →
      ¬((op = 0x05 ∨ op = 0x06 ∨ op = 0x07) ∧ a = 0 ∧ b = 0 ∧ sid.toNat < n) → ∃ e, decode n r = .error e)

/-- No word matches two rows of the opcode table, and a decoded word matches the row of its operation
(opcode_table.json; 30_encoding.md section 2). -/
def Obligations.OpcodeRowsAreDisjoint : Prop :=
  (∀ (i j : Instr) (w : Word),
    w &&& i.row.mask = i.row.pattern → w &&& j.row.mask = j.row.pattern → i.row = j.row) ∧
  ∀ (n : Nat) (r : Request) (i : Instr), decode n r = .ok i → r.word &&& i.row.mask = i.row.pattern

/-- One request word of each operation, written out in 95_test_vectors.md, decodes to the operation it stands for. -/
def Obligations.WrittenOutWordsDecode : Prop :=
  decode 2 ⟨0x0100AF01, [], ⟨0, 0⟩⟩ = .ok (.feed 0x01 0xAF) ∧
  decode 1 ⟨0x002A0102, [], ⟨0, 5⟩⟩ = .ok (.packFixed 0x01 0x2A ⟨0, 5⟩) ∧
  decode 1 ⟨0x00000103, [0x10, 0x20, 0x30], ⟨0, 7⟩⟩ = .ok (.packVar 0x01 [0x10, 0x20, 0x30] ⟨0, 7⟩) ∧
  decode 1 ⟨0x00000004, [0xFF, 0x0F], ⟨0, 0⟩⟩ = .ok (.checksum [0xFF, 0x0F]) ∧
  decode 1 ⟨0x00000005, [], ⟨0, 0⟩⟩ = .ok (.rdConnected 0) ∧
  decode 1 ⟨0x00000006, [], ⟨0, 0⟩⟩ = .ok (.rdErrcnt 0) ∧
  decode 2 ⟨0x01000007, [], ⟨0, 0⟩⟩ = .ok (.rdLast 1)

/-- The assembler forms stand for the requests of their operations, and the pseudo-instructions expand as given
(30_encoding.md section 4). -/
def Obligations.AssemblerFormsAreEncodings : Prop :=
  (∀ b s, asmFeed b s = encode (.feed s b)) ∧
  (∀ c d out, asmPackFixed c d out = encode (.packFixed c d out)) ∧
  (∀ c p m base, asmPackVar c p m base = encode (.packVar c p ⟨base, m⟩)) ∧
  (∀ q, asmChecksum q = encode (.checksum q)) ∧
  (∀ s, asmRdConnected s = encode (.rdConnected s)) ∧
  (∀ s, asmRdErrcnt s = encode (.rdErrcnt s)) ∧
  (∀ s, asmRdLast s = encode (.rdLast s)) ∧
  (∀ xs s, asmFeeds xs s = xs.map fun b => encode (.feed s b)) ∧
  (∀ c p base, asmSend c p base = encode (.packVar c p ⟨base, p.length + 4⟩))

/-! ## Steps, requests and reset -/

/-- A step runs the decoded operation: when the oldest pending host action is a request that decodes to `i`, the step is `exec i`
with the request taken off the queue (assumption log 2; 30_encoding.md section 2). -/
def Obligations.StepRunsTheDecodedOperation : Prop :=
  ∀ (s : State) (r : Request) (rest : List HostAction) (i : Instr),
    s.inbox = .request r :: rest → decode s.nSessions r = .ok i → step s = exec i { s with inbox := rest }

/-- 30_encoding.md R64 and 60_exceptions.md R147: a reserved request is answered IllegalRequest (kind 0xFF) and changes no
session register, no BUF byte and no OUT byte. -/
def Obligations.ReservedRequestIsAnsweredIllegal : Prop :=
  ResponseKind.illegalRequest.code = 0xFF ∧
  ∀ (s : State) (r : Request) (rest : List HostAction),
    s.inbox = .request r :: rest → Reserved s.nSessions r.word →
    ∃ t, step s = .next t ∧ t.responses = s.responses ++ [⟨.illegalRequest, 0, []⟩] ∧
      t.slots = s.slots ∧ t.out = s.out ∧ t.maxPayload = s.maxPayload ∧ t.inbox = rest

/-- 20_memory.md R49: with no operation to perform, the state persists unchanged for any number of steps. -/
def Obligations.IdleBlockKeepsItsState : Prop :=
  ∀ (s : State) (k : Nat), s.inbox = [] → Host.Core.run core k s = .next s

/-- Queued requests take effect one at a time, in the order the block accepts them, each on the state the earlier ones left
(20_memory.md section 3; the queue is assumption log 2). -/
def Obligations.QueuedRequestsRunInOrder : Prop :=
  ∀ (s : State) (rs : List Request) (is : List Instr) (rest : List HostAction),
    s.inbox = rs.map HostAction.request ++ rest → rs.map (decode s.nSessions) = is.map Except.ok →
    Host.Core.run core rs.length s = runInstrs is { s with inbox := rest }

/-- 70_reset_and_hazards.md R166: `RESET(sid)` sets every register of the session to its value of R29, delivers no response and
writes no OUT byte; power-on has reset every session. -/
def Obligations.HostResetSetsEveryRegister : Prop :=
  (∀ (s : State) (sid : Nat) (rest : List HostAction),
    s.inbox = .reset sid :: rest → sid < s.nSessions →
    ∃ t k, step s = .next t ∧ t.slots[sid]? = some ⟨k + 1, ⟨.waitHeader, 0, 0, 0, 0, false, []⟩⟩ ∧
      (∀ j, j ≠ sid → t.slots[j]? = s.slots[j]?) ∧
      t.responses = s.responses ∧ t.out = s.out ∧ t.maxPayload = s.maxPayload ∧ t.inbox = rest) ∧
  ∀ sl ∈ State.reset.slots, ∃ k, sl = ⟨k + 1, ⟨.waitHeader, 0, 0, 0, 0, false, []⟩⟩

/-- 70_reset_and_hazards.md R167: `RESET(sid)` leaves every other session unchanged, and no request resets a session or any
part of one: after a request every session's reset count is what it was, and its error counter is kept or one higher, the latter
only for a FEED at the checksum byte. -/
def Obligations.OnlyResetResetsASession : Prop :=
  (∀ (s t : State) (sid : Nat) (rest : List HostAction),
    s.inbox = .reset sid :: rest → step s = .next t → ∀ j, j ≠ sid → t.slots[j]? = s.slots[j]?) ∧
  ∀ (s t : State) (r : Request) (rest : List HostAction), s.inbox = .request r :: rest → step s = .next t →
    ∀ (j : Nat) (sl : Slot), s.slots[j]? = some sl →
      ∃ sl', t.slots[j]? = some sl' ∧ sl'.resets = sl.resets ∧
        (sl'.session.checksumErrorCount = sl.session.checksumErrorCount ∨
          (sl'.session.checksumErrorCount = sl.session.checksumErrorCount + 1 ∧
            ∃ sid b, decode s.nSessions r = .ok (.feed sid b) ∧ sid.toNat = j ∧ sl.session.state = .readChecksum))

/-- 10_state.md R29: the reset values, with `BUF` holding no written byte; and an unspecified `BUF` byte never reaches an output:
the bytes a FrameReady carries are bytes fed since the header of that same frame, in order. -/
def Obligations.ResetValuesAndUnwrittenBuf : Prop :=
  (∀ sl ∈ State.reset.slots,
    sl.session.state = .waitHeader ∧ sl.session.pendingLength = 0x00 ∧ sl.session.pendingCommand = 0x00 ∧
    sl.session.writeIndex = 0 ∧ sl.session.checksumErrorCount = 0 ∧ sl.session.connected = false ∧
    ∀ i, memRead sl.session.buf i = none) ∧
  ∀ (s t u : State) (sid b : Byte) (sl : Slot) (bs p : List Byte) (w : Word),
    liveSlot? sid s = some sl → sl.session.state = .waitHeader → runFeeds sid bs s = .next t →
    exec (.feed sid b) t = .next u → u.responses = t.responses ++ [⟨.frameReady, w, p⟩] →
    ∃ pre l c, bs = pre ++ [0xAF, l, c] ++ p ∧ l.toNat = p.length

/-! ## The checksum generator -/

/-- 00_scope.md R14: the defining equations of `xor_reduce`, and its independence of the order of the bytes. -/
def Obligations.XorReduceIsTheFold : Prop :=
  xorReduce [] = 0x00 ∧ (∀ q b, xorReduce (q ++ [b]) = xorReduce q ^^^ b) ∧
  ∀ q q' : List Byte, q.Perm q' → xorReduce q = xorReduce q'

/-- 40_checksum.md R82: CHECKSUM answers the XOR of its operand and changes nothing else; its encoding; its corner cases. -/
def Obligations.ChecksumOperation : Prop :=
  (∀ (q : List Byte) (s : State),
    exec (.checksum q) s = .next { s with responses := s.responses ++ [⟨.ok, (xorReduce q).setWidth 32, []⟩] }) ∧
  (∀ n q o, decode n ⟨0x00000004, q, o⟩ = .ok (.checksum q)) ∧
  (∀ n (w : Word) q o, w.extractLsb' 0 8 = 0x04 → w ≠ 0x00000004 → ∃ e, decode n ⟨w, q, o⟩ = .error e) ∧
  xorReduce [] = 0x00 ∧ (∀ b, xorReduce [b] = b) ∧
  (∀ (q : List Byte) (v : Byte), q.count v % 2 = 0 → xorReduce q = xorReduce (q.filter fun x => x != v)) ∧
  (∀ q q' : List Byte, q.Perm q' → xorReduce q = xorReduce q') ∧
  (∀ c p, xorReduce (frame c p) = 0x00) ∧
  xorReduce [0xAF, 0x03, 0x01, 0x10, 0x20, 0x30] = 0xAD

/-- 40_checksum.md R85: the laws of the checksum, item by item. -/
def Obligations.ChecksumLaws : Prop :=
  (∀ x y z : Byte, x ^^^ 0 = x ∧ x ^^^ x = 0 ∧ (x ^^^ y) ^^^ z = x ^^^ (y ^^^ z) ∧ x ^^^ y = y ^^^ x) ∧
  (∀ q q' : List Byte, q.Perm q' → xorReduce q = xorReduce q') ∧
  (∀ q q' : List Byte, xorReduce (q ++ q') = xorReduce q ^^^ xorReduce q') ∧
  (∀ (q : List Byte) (i : Nat) (a e : Byte), q[i]? = some a → e ≠ 0 →
    xorReduce (q.set i (a ^^^ e)) = xorReduce q ^^^ e) ∧
  (∀ (c : Byte) (p : List Byte) (i : Nat) (a e : Byte), p[i]? = some a → e ≠ 0 →
    xorReduce ([0xAF, lengthByte p, c] ++ p.set i (a ^^^ e)) ≠ xorReduce ([0xAF, lengthByte p, c] ++ p)) ∧
  (∀ (c e : Byte) (p : List Byte), e ≠ 0 →
    xorReduce ([0xAF, lengthByte p, c ^^^ e] ++ p) ≠ xorReduce ([0xAF, lengthByte p, c] ++ p)) ∧
  (∀ (q : List Byte) (i j : Nat) (a a' e : Byte), i ≠ j → q[i]? = some a → q[j]? = some a' →
    xorReduce ((q.set i (a ^^^ e)).set j (a' ^^^ e)) = xorReduce q) ∧
  (∀ (q : List Byte) (i j : Nat) (a a' : Byte), q[i]? = some a → q[j]? = some a' →
    xorReduce ((q.set i a').set j a) = xorReduce q)

/-- 40_checksum.md R84: a parser that keeps a running XOR gives the same session and the same responses as the parser that
recomputes over `BUF`, for every byte stream from `WaitHeader`, whatever the accumulator holds there. -/
def Obligations.RunningXorMatchesRecompute : Prop :=
  ∀ (maxPayload : Fin 256) (free : Nat → Byte) (x : Session) (acc : Byte) (bs : List Byte),
    SessionInv maxPayload x → x.state = .waitHeader →
    ∃ y rs acc', feedList maxPayload free bs x = .ok (y, rs) ∧ accList maxPayload free bs ⟨x, acc⟩ = .ok (⟨y, acc'⟩, rs)

/-! ## The encoder -/

/-- 41_encoder.md R91: PACK_FIXED into a buffer of at least 5 bytes; its encoding; its corner cases. -/
def Obligations.PackFixedOperation : Prop :=
  (∀ (c d : Byte) (o : OutBuf) (s : State), 5 ≤ o.cap →
    exec (.packFixed c d o) s = .next { s with
      out := memWriteBytes s.out o.base [0xAF, 0x01, c, d, 0xAF ^^^ 0x01 ^^^ c ^^^ d]
      responses := s.responses ++ [⟨.ok, 5, [0xAF, 0x01, c, d, 0xAF ^^^ 0x01 ^^^ c ^^^ d]⟩] }) ∧
  (∀ (n : Nat) (c d sid : Byte) (q : List Byte) (o : OutBuf),
    (decode n ⟨d.setWidth 32 <<< 16 ||| c.setWidth 32 <<< 8 ||| 0x02, q, o⟩ = .ok (.packFixed c d o)) ∧
    (sid ≠ 0 → ∃ e, decode n
      ⟨sid.setWidth 32 <<< 24 ||| d.setWidth 32 <<< 16 ||| c.setWidth 32 <<< 8 ||| 0x02, q, o⟩ = .error e)) ∧
  (∀ c d : Byte, 0xAF ^^^ 0x01 ^^^ c ^^^ d = 0xAE ^^^ c ^^^ d) ∧
  (∀ (c d : Byte) (base : Nat) (s : State), 1 ≤ s.maxPayload.val →
    exec (.packFixed c d ⟨base, 5⟩) s = exec (.packVar c [d] ⟨base, 5⟩) s) ∧
  (0xAF ^^^ 0x01 ^^^ 0x01 ^^^ 0x2A : Byte) = 0x85

/-- 41_encoder.md R92: PACK_FIXED into a buffer of fewer than 5 bytes is refused. -/
def Obligations.PackFixedIntoSmallBufferIsRefused : Prop :=
  ∀ (c d : Byte) (o : OutBuf) (s : State), o.cap < 5 → exec (.packFixed c d o) s = .refused .packFixedOutTooSmall

/-- 41_encoder.md R94: PACK_VAR's three outcomes; its encoding; its corner cases and example. -/
def Obligations.PackVarOperation : Prop :=
  (∀ (c : Byte) (p : List Byte) (o : OutBuf) (s : State), p.length ≤ s.maxPayload.val → p.length + 4 ≤ o.cap →
    let f := [0xAF, BitVec.ofNat 8 p.length, c] ++ p
    exec (.packVar c p o) s = .next { s with
      out := memWriteBytes s.out o.base (f ++ [xorReduce f])
      responses := s.responses ++ [⟨.ok, BitVec.ofNat 32 (p.length + 4), f ++ [xorReduce f]⟩] }) ∧
  (∀ (c : Byte) (p : List Byte) (o : OutBuf) (s : State), s.maxPayload.val < p.length →
    exec (.packVar c p o) s = .next { s with responses := s.responses ++ [⟨.sizeExceeded, 0, []⟩] }) ∧
  (∀ (c : Byte) (p : List Byte) (o : OutBuf) (s : State), p.length ≤ s.maxPayload.val → o.cap < p.length + 4 →
    exec (.packVar c p o) s = .next { s with responses := s.responses ++ [⟨.capacityViolation, 0, []⟩] }) ∧
  (∀ (n : Nat) (b c sid : Byte) (p : List Byte) (o : OutBuf),
    (decode n ⟨c.setWidth 32 <<< 8 ||| 0x03, p, o⟩ = .ok (.packVar c p o)) ∧
    (b ≠ 0 ∨ sid ≠ 0 → ∃ e, decode n
      ⟨sid.setWidth 32 <<< 24 ||| b.setWidth 32 <<< 16 ||| c.setWidth 32 <<< 8 ||| 0x03, p, o⟩ = .error e)) ∧
  (∀ c, frame c [] = [0xAF, 0x00, c, 0xAF ^^^ c]) ∧
  (∀ c p, p.length = 255 → (frame c p).length = 259) ∧
  frame 0x01 [0x10, 0x20, 0x30] = [0xAF, 0x03, 0x01, 0x10, 0x20, 0x30, 0xAD]

/-- 41_encoder.md R95 and R96: the size check and the capacity check, each writing no byte of OUT; the boundary; the order. -/
def Obligations.PackVarChecks : Prop :=
  ResponseKind.sizeExceeded.code = 0x10 ∧ ResponseKind.capacityViolation.code = 0x11 ∧
  ∀ (c : Byte) (p : List Byte) (o : OutBuf) (s : State),
    ∃ t r, exec (.packVar c p o) s = .next t ∧ t.responses = s.responses ++ [r] ∧
      (r.kind = .sizeExceeded ↔ s.maxPayload.val < p.length) ∧
      (r.kind = .capacityViolation ↔ p.length ≤ s.maxPayload.val ∧ o.cap < p.length + 4) ∧
      (r.kind = .ok ↔ p.length ≤ s.maxPayload.val ∧ p.length + 4 ≤ o.cap) ∧
      (r.kind ≠ .ok → t.out = s.out ∧ r.word = 0 ∧ r.bytes = [])

/-- 20_memory.md R40: a successful pack writes frame[i] at OUT:i for i below its length and no other byte, and returns the
frame; a pack that fails writes nothing. -/
def Obligations.PackWritesExactlyItsFrame : Prop :=
  ∀ (i : Instr) (o : OutBuf) (s t : State), IsPack i o → exec i s = .next t →
    ∃ r, t.responses = s.responses ++ [r] ∧
      (r.kind = .ok → r.bytes.length ≤ o.cap ∧ r.word = BitVec.ofNat 32 r.bytes.length ∧
        (∀ k, k < r.bytes.length → memRead t.out (o.base + k) = r.bytes[k]?) ∧
        ∀ a, a < o.base ∨ o.base + r.bytes.length ≤ a → memRead t.out a = memRead s.out a) ∧
      (r.kind ≠ .ok → ∀ a, memRead t.out a = memRead s.out a)

/-- 30_encoding.md R50 and R55: the layout of every frame the encoder answers, field by field, and its checksum. -/
def Obligations.EncoderFrameLayout : Prop :=
  ∀ (s : State) (c : Byte) (p f : List Byte), EncoderEmits s c p f →
    f.length = p.length + 4 ∧ f[0]? = some 0xAF ∧ (∃ l, f[1]? = some l ∧ l.toNat = p.length) ∧ f[2]? = some c ∧
    (1 ≤ s.maxPayload.val → p.length ≤ s.maxPayload.val) ∧
    (∀ k, k < p.length → f[3 + k]? = p[k]?) ∧
    f[3 + p.length]? = some (xorReduce (f.take (3 + p.length))) ∧ xorReduce f = 0x00

/-- The encoder and the checksum generator answer from their operands and MAX_PAYLOAD alone (41_encoder.md, opening rule):
two states with one MAX_PAYLOAD get one response. -/
def Obligations.StatelessAnswersDependOnOperandsOnly : Prop :=
  ∀ (i : Instr) (s s' t : State), i.session? = none → s.maxPayload = s'.maxPayload → exec i s = .next t →
    ∃ t' r, exec i s' = .next t' ∧ t.responses = s.responses ++ [r] ∧ t'.responses = s'.responses ++ [r]

/-! ## The parser: one transition -/

/-- 42_parser.md R107. -/
def Obligations.HeaderByteStartsAFrame : Prop :=
  ∀ (s : State) (sid : Byte) (sl : Slot), liveSlot? sid s = some sl → sl.session.state = .waitHeader →
    exec (.feed sid 0xAF) s = .next (respond ⟨.ok, 0, []⟩
      (setSession sid { sl.session with writeIndex := 0, state := .readLength } s))

/-- 42_parser.md R108. -/
def Obligations.OtherByteIsDiscarded : Prop :=
  ∀ (s : State) (sid b : Byte) (sl : Slot), liveSlot? sid s = some sl → sl.session.state = .waitHeader → b ≠ 0xAF →
    exec (.feed sid b) s = .next { s with responses := s.responses ++ [⟨.ok, 0, []⟩] }

/-- 42_parser.md R109: the silent abort, and that no byte takes it when MAX_PAYLOAD is 255. -/
def Obligations.LengthAboveBoundAborts : Prop :=
  (∀ (s : State) (sid b : Byte) (sl : Slot), liveSlot? sid s = some sl → sl.session.state = .readLength →
    s.maxPayload.val < b.toNat →
    exec (.feed sid b) s = .next (respond ⟨.ok, 0, []⟩ (setSession sid { sl.session with state := .waitHeader } s))) ∧
  (∀ (s : State) (b : Byte), s.maxPayload.val = 255 → ¬ s.maxPayload.val < b.toNat)

/-- 42_parser.md R110. -/
def Obligations.LengthWithinBoundIsCaptured : Prop :=
  ∀ (s : State) (sid b : Byte) (sl : Slot), liveSlot? sid s = some sl → sl.session.state = .readLength →
    b.toNat ≤ s.maxPayload.val →
    exec (.feed sid b) s = .next (respond ⟨.ok, 0, []⟩
      (setSession sid { sl.session with pendingLength := b, writeIndex := 0, state := .readCommand } s))

/-- 42_parser.md R111 and R112. -/
def Obligations.CommandByteIsCaptured : Prop :=
  ∀ (s : State) (sid b : Byte) (sl : Slot), liveSlot? sid s = some sl → sl.session.state = .readCommand →
    (sl.session.pendingLength = 0 →
      exec (.feed sid b) s = .next (respond ⟨.ok, 0, []⟩
        (setSession sid { sl.session with pendingCommand := b, state := .readChecksum } s))) ∧
    (sl.session.pendingLength ≠ 0 →
      exec (.feed sid b) s = .next (respond ⟨.ok, 0, []⟩
        (setSession sid { sl.session with pendingCommand := b, state := .readPayload } s)))

/-- 42_parser.md R113: the four effects, that the write is in bounds in every session that satisfies R28, and that the increment
does not overflow. -/
def Obligations.PayloadByteIsStored : Prop :=
  ∀ (s : State) (sid b : Byte) (sl : Slot), liveSlot? sid s = some sl → sl.session.state = .readPayload →
    let wi := sl.session.writeIndex
    (wi.toNat < s.maxPayload.val →
      (wi + 1).toNat = wi.toNat + 1 ∧
      exec (.feed sid b) s = .next (respond ⟨.ok, 0, []⟩ (setSession sid { sl.session with
        buf := memWrite sl.session.buf wi.toNat b
        writeIndex := wi + 1
        state := if wi + 1 = sl.session.pendingLength then .readChecksum else .readPayload } s)) ∧
      memRead (memWrite sl.session.buf wi.toNat b) wi.toNat = some b ∧
      ∀ k, k ≠ wi.toNat → memRead (memWrite sl.session.buf wi.toNat b) k = memRead sl.session.buf k) ∧
    (SessionInv s.maxPayload sl.session → wi.toNat < s.maxPayload.val)

/-- 42_parser.md R114: the byte is compared with the checksum recomputed over the header, the pending pair and
`BUF[0..pending_length)`, and the parser is in `WaitHeader` afterwards in every case. -/
def Obligations.ChecksumByteIsComparedWithRecomputed : Prop :=
  ∀ (s : State) (sid b : Byte) (sl : Slot) (p : List Byte),
    liveSlot? sid s = some sl → sl.session.state = .readChecksum →
    sl.session.pendingLength.toNat ≤ s.maxPayload.val → p.length = sl.session.pendingLength.toNat →
    (∀ k, k < p.length → memRead sl.session.buf k = p[k]?) →
    ∃ t r sl', exec (.feed sid b) s = .next t ∧ t.responses = s.responses ++ [r] ∧
      liveSlot? sid t = some sl' ∧ sl'.session.state = .waitHeader ∧
      (b = xorReduce ([0xAF, sl.session.pendingLength, sl.session.pendingCommand] ++ p) →
        r.kind = .frameReady ∧ r.bytes = p) ∧
      (b ≠ xorReduce ([0xAF, sl.session.pendingLength, sl.session.pendingCommand] ++ p) → r.kind = .checksumError)

/-- 42_parser.md R115, for whatever `BUF` reads as (`pendingPayload`; unwritten bytes are free values, assumption log 4). -/
def Obligations.ChecksumMatchEmitsTheFrame : Prop :=
  ∀ (s : State) (sid : Byte) (sl : Slot), liveSlot? sid s = some sl → sl.session.state = .readChecksum →
    sl.session.pendingLength.toNat ≤ s.maxPayload.val →
    let p := pendingPayload sid sl
    exec (.feed sid (xorReduce ([0xAF, sl.session.pendingLength, sl.session.pendingCommand] ++ p))) s =
      .next (respond
        ⟨.frameReady, sl.session.pendingLength.setWidth 32 <<< 8 ||| sl.session.pendingCommand.setWidth 32, p⟩
        (setSession sid { sl.session with connected := true, state := .waitHeader } s))

/-- 42_parser.md R116, for whatever `BUF` reads as. -/
def Obligations.ChecksumMismatchIsCounted : Prop :=
  ∀ (s : State) (sid b : Byte) (sl : Slot), liveSlot? sid s = some sl → sl.session.state = .readChecksum →
    sl.session.pendingLength.toNat ≤ s.maxPayload.val →
    b ≠ xorReduce ([0xAF, sl.session.pendingLength, sl.session.pendingCommand] ++ pendingPayload sid sl) →
    exec (.feed sid b) s =
      .next (respond ⟨.checksumError, 0, []⟩ (setSession sid { sl.session with
        connected := false
        checksumErrorCount := sl.session.checksumErrorCount + 1
        state := .waitHeader } s))

/-- Each register of a session has the writers 10_state.md sections 1, 3 and 4 give it, and no others. -/
def Obligations.FeedWritesOnlyTheRegistersOfItsState : Prop :=
  ∀ (s t : State) (sid b : Byte) (sl : Slot), liveSlot? sid s = some sl → exec (.feed sid b) s = .next t →
    ∃ sl', liveSlot? sid t = some sl' ∧ sl'.resets = sl.resets ∧
      (sl'.session.pendingLength ≠ sl.session.pendingLength →
        sl.session.state = .readLength ∧ b.toNat ≤ s.maxPayload.val ∧ sl'.session.pendingLength = b) ∧
      (sl'.session.pendingCommand ≠ sl.session.pendingCommand →
        sl.session.state = .readCommand ∧ sl'.session.pendingCommand = b) ∧
      (sl'.session.writeIndex ≠ sl.session.writeIndex →
        (sl.session.state = .waitHeader ∧ b = 0xAF ∧ sl'.session.writeIndex = 0) ∨
        (sl.session.state = .readLength ∧ b.toNat ≤ s.maxPayload.val ∧ sl'.session.writeIndex = 0) ∨
        (sl.session.state = .readPayload ∧ sl'.session.writeIndex = sl.session.writeIndex + 1)) ∧
      (sl'.session.connected ≠ sl.session.connected → sl.session.state = .readChecksum) ∧
      (sl'.session.checksumErrorCount ≠ sl.session.checksumErrorCount →
        sl.session.state = .readChecksum ∧
        sl'.session.checksumErrorCount = sl.session.checksumErrorCount + 1 ∧ sl'.session.connected = false) ∧
      ∀ k, memRead sl'.session.buf k ≠ memRead sl.session.buf k →
        sl.session.state = .readPayload ∧ k = sl.session.writeIndex.toNat ∧ memRead sl'.session.buf k = some b

/-- The frame of FEED: every other session, every OUT byte, the parameters and the pending host actions are unchanged, and one
response is delivered (20_memory.md section 2). -/
def Obligations.FeedTouchesOnlyItsSession : Prop :=
  ∀ (s t : State) (sid b : Byte), exec (.feed sid b) s = .next t →
    (∀ j, j ≠ sid.toNat → t.slots[j]? = s.slots[j]?) ∧ t.slots.length = s.slots.length ∧
    (∀ a, memRead t.out a = memRead s.out a) ∧ t.maxPayload = s.maxPayload ∧ t.inbox = s.inbox ∧
    ∃ r, t.responses = s.responses ++ [r]

/-- The frame of every other operation: it leaves every session register, the parser state among them, the parameters and the
pending host actions as they were; CHECKSUM and the accessors write no OUT byte either (10_state.md section 2, 20_memory.md
section 2). -/
def Obligations.OtherOperationsLeaveTheSessions : Prop :=
  ∀ (i : Instr) (s t : State), (∀ sid b, i ≠ .feed sid b) → exec i s = .next t →
    t.slots = s.slots ∧ t.maxPayload = s.maxPayload ∧ t.inbox = s.inbox ∧
    ((∀ o, ¬ IsPack i o) → ∀ a, memRead t.out a = memRead s.out a) ∧ ∃ r, t.responses = s.responses ++ [r]

/-! ## The parser: byte streams -/

/-- 42_parser.md R118: FEED is enabled in every session that satisfies the invariant, and from every state other than
`WaitHeader` every byte stream brings the parser back within MAX_PAYLOAD + 3 bytes; the worst case, which takes them all, is a
length byte of MAX_PAYLOAD in `ReadLength`. -/
def Obligations.ParserReturnsToWaitHeader : Prop :=
  ∀ (s : State) (sid : Byte) (sl : Slot), StateInv s → liveSlot? sid s = some sl →
    (∀ b, ∃ t, exec (.feed sid b) s = .next t) ∧
    (sl.session.state ≠ .waitHeader → ∀ bs : List Byte, bs.length = s.maxPayload.val + 3 →
      ∃ k t sl', k ≤ s.maxPayload.val + 3 ∧ runFeeds sid (bs.take k) s = .next t ∧ liveSlot? sid t = some sl' ∧
        sl'.session.state = .waitHeader) ∧
    (sl.session.state = .readLength → ∀ (bs : List Byte) (t : State) (sl' : Slot),
      bs[0]? = some (BitVec.ofNat 8 s.maxPayload.val) → bs.length < s.maxPayload.val + 3 →
      runFeeds sid bs s = .next t → liveSlot? sid t = some sl' → sl'.session.state ≠ .waitHeader)

/-- 42_parser.md R119 and R122: an event comes only from a byte consumed in ReadChecksum; and from `WaitHeader`, whatever bytes
follow a header and an accepted length byte `l`, the next `l + 2` are taken as command, payload and checksum, answer NoEvent until
the last, and give FrameReady or ChecksumError on it. -/
def Obligations.AnyBytesAfterALengthAreOneFrame : Prop :=
  (∀ (s t : State) (sid b : Byte) (sl : Slot) (r : Response), liveSlot? sid s = some sl → exec (.feed sid b) s = .next t →
    t.responses = s.responses ++ [r] → r.kind ≠ .ok → sl.session.state = .readChecksum) ∧
  ∀ (s : State) (sid l c k : Byte) (p : List Byte) (sl : Slot),
    liveSlot? sid s = some sl → sl.session.state = .waitHeader → l.toNat ≤ s.maxPayload.val → p.length = l.toNat →
    ∃ t, runFeeds sid ([0xAF, l, c] ++ p ++ [k]) s = .next t ∧
      (k = xorReduce ([0xAF, l, c] ++ p) →
        t.responses = s.responses ++ List.replicate (l.toNat + 3) ⟨.ok, 0, []⟩ ++
          [⟨.frameReady, l.setWidth 32 <<< 8 ||| c.setWidth 32, p⟩] ∧
        liveSlot? sid t = some ⟨sl.resets, { received sl.session l c p with connected := true }⟩) ∧
      (k ≠ xorReduce ([0xAF, l, c] ++ p) →
        t.responses = s.responses ++ List.replicate (l.toNat + 3) ⟨.ok, 0, []⟩ ++ [⟨.checksumError, 0, []⟩] ∧
        liveSlot? sid t = some ⟨sl.resets, { received sl.session l c p with
          connected := false, checksumErrorCount := sl.session.checksumErrorCount + 1 }⟩)

/-- 42_parser.md R120: noise without a header byte changes nothing in a session in `WaitHeader`, and every response is NoEvent;
in `ReadChecksum` the next byte gives an event, whatever it is. -/
def Obligations.NoiseNeverEmitsAnEvent : Prop :=
  (∀ (s : State) (sid : Byte) (sl : Slot) (bs : List Byte),
    liveSlot? sid s = some sl → sl.session.state = .waitHeader → 0xAF ∉ bs →
    runFeeds sid bs s = .next { s with responses := s.responses ++ List.replicate bs.length ⟨.ok, 0, []⟩ }) ∧
  ∀ (s : State) (sid b : Byte) (sl : Slot), liveSlot? sid s = some sl → sl.session.state = .readChecksum →
    sl.session.pendingLength.toNat ≤ s.maxPayload.val →
    ∃ t r, exec (.feed sid b) s = .next t ∧ t.responses = s.responses ++ [r] ∧ (r.kind = .frameReady ∨ r.kind = .checksumError)

/-- 42_parser.md R124: the bytes the encoder answers for (c, p) decode to FrameReady(c, p), with the session left as the rule
says. -/
def Obligations.EncodedFrameDecodes : Prop :=
  ∀ (s : State) (sid c : Byte) (p f : List Byte) (sl : Slot),
    EncoderEmits s c p f → p.length ≤ s.maxPayload.val → liveSlot? sid s = some sl → sl.session.state = .waitHeader →
    ∃ t sl', runFeeds sid f s = .next t ∧
      t.responses = s.responses ++ List.replicate (p.length + 3) ⟨.ok, 0, []⟩ ++
        [⟨.frameReady, (BitVec.ofNat 32 p.length) <<< 8 ||| c.setWidth 32, p⟩] ∧
      liveSlot? sid t = some sl' ∧ sl'.session.state = .waitHeader ∧ sl'.session.connected = true ∧
      sl'.session.pendingLength.toNat = p.length ∧ sl'.session.pendingCommand = c ∧
      sl'.session.checksumErrorCount = sl.session.checksumErrorCount

/-- 42_parser.md R121: an encoded frame whose checksum byte is replaced gives exactly one ChecksumError and counts exactly once,
and the next encoded frame decodes. -/
def Obligations.CorruptedChecksumIsReportedOnce : Prop :=
  ∀ (s : State) (sid c c₂ k : Byte) (p p₂ f f₂ : List Byte) (sl : Slot),
    EncoderEmits s c p f → p.length ≤ s.maxPayload.val → some k ≠ f.getLast? →
    EncoderEmits s c₂ p₂ f₂ → p₂.length ≤ s.maxPayload.val →
    liveSlot? sid s = some sl → sl.session.state = .waitHeader →
    ∃ t sl' u, runFeeds sid (f.dropLast ++ [k]) s = .next t ∧
      t.responses = s.responses ++ List.replicate (p.length + 3) ⟨.ok, 0, []⟩ ++ [⟨.checksumError, 0, []⟩] ∧
      liveSlot? sid t = some sl' ∧ sl'.session.state = .waitHeader ∧ sl'.session.connected = false ∧
      sl'.session.checksumErrorCount = sl.session.checksumErrorCount + 1 ∧
      runFeeds sid f₂ t = .next u ∧
      u.responses = t.responses ++ List.replicate (p₂.length + 3) ⟨.ok, 0, []⟩ ++
        [⟨.frameReady, (BitVec.ofNat 32 p₂.length) <<< 8 ||| c₂.setWidth 32, p₂⟩]

/-- 42_parser.md R123: after a noise byte 0xAF in `WaitHeader`, a real frame's header becomes the length 175, and the bytes that
follow are consumed as command, payload and checksum of a 179-byte frame. -/
def Obligations.FalseHeaderSwallowsTheRealFrame : Prop :=
  ∀ (s : State) (sid c c' k : Byte) (p f more q : List Byte) (sl : Slot),
    EncoderEmits s c p f → 175 ≤ s.maxPayload.val → liveSlot? sid s = some sl → sl.session.state = .waitHeader →
    q.length = 175 → (f.tail ++ more).take 177 = c' :: q ++ [k] →
    ∃ t r sl', runFeeds sid ((0xAF :: f ++ more).take 179) s = .next t ∧
      t.responses = s.responses ++ List.replicate 178 ⟨.ok, 0, []⟩ ++ [r] ∧
      liveSlot? sid t = some sl' ∧ sl'.session.pendingLength = 175 ∧ sl'.session.pendingCommand = c' ∧
      sl'.session.state = .waitHeader ∧
      (k = xorReduce ([0xAF, 0xAF, c'] ++ q) → r.kind = .frameReady ∧ r.bytes = q) ∧
      (k ≠ xorReduce ([0xAF, 0xAF, c'] ++ q) → r.kind = .checksumError)

/-- 42_parser.md R125: the output for a byte stream depends only on the stream and the session at its start, and not on how the
bytes were grouped. -/
def Obligations.OutputDependsOnStreamAndSession : Prop :=
  (∀ (sid : Byte) (bs : List Byte) (s s' t : State),
    s.maxPayload = s'.maxPayload → s.slots[sid.toNat]? = s'.slots[sid.toNat]? → runFeeds sid bs s = .next t →
    ∃ t' rs, runFeeds sid bs s' = .next t' ∧ t.responses = s.responses ++ rs ∧ t'.responses = s'.responses ++ rs ∧
      t'.slots[sid.toNat]? = t.slots[sid.toNat]?) ∧
  ∀ (sid : Byte) (bs bs' : List Byte) (s t : State), runFeeds sid bs s = .next t →
    runFeeds sid (bs ++ bs') s = runFeeds sid bs' t

/-- 42_parser.md R126: `connected` is the outcome of the last checksum comparison, and the error counter counts the mismatches,
modulo 2^32; from a session just reset they start at 0. -/
def Obligations.ConnectedAndCounterFollowTheEvents : Prop :=
  ∀ (sid : Byte) (bs : List Byte) (s t : State) (sl : Slot), liveSlot? sid s = some sl → runFeeds sid bs s = .next t →
    ∃ rs sl', t.responses = s.responses ++ rs ∧ liveSlot? sid t = some sl' ∧
      sl'.session.connected = lastOutcome sl.session.connected rs ∧
      sl'.session.checksumErrorCount = sl.session.checksumErrorCount + BitVec.ofNat 32 (mismatches rs) ∧
      (sl.session = Session.reset →
        sl'.session.connected = lastOutcome false rs ∧
        sl'.session.checksumErrorCount.toNat = mismatches rs % 2 ^ 32)

/-! ## The accessors -/

/-- What the accessors answer in a session that has been reset, in every parser state: `connected`, the error counter, and
pending_length << 8 | pending_command (43_accessors.md). Nothing but the response record changes. -/
def Obligations.AccessorsAnswerTheirRegisters : Prop :=
  ∀ (s : State) (sid : Byte) (sl : Slot), liveSlot? sid s = some sl →
    exec (.rdConnected sid) s = .next { s with
      responses := s.responses ++ [⟨.ok, if sl.session.connected then 1 else 0, []⟩] } ∧
    exec (.rdErrcnt sid) s = .next { s with responses := s.responses ++ [⟨.ok, sl.session.checksumErrorCount, []⟩] } ∧
    exec (.rdLast sid) s = .next { s with
      responses := s.responses ++
        [⟨.ok, sl.session.pendingLength.setWidth 32 <<< 8 ||| sl.session.pendingCommand.setWidth 32, []⟩] }

/-- 43_accessors.md R131: an accessor may be issued in any state of a session that has been reset; it writes nothing; its only
error is IllegalRequest, for a request that does not decode; and two reads with no FEED or reset between them agree. -/
def Obligations.AccessorsAreReadOnly : Prop :=
  (∀ (i : Instr) (s : State) (sid : Byte) (sl : Slot), IsAccessor i sid → liveSlot? sid s = some sl →
    ∃ t w, exec i s = .next t ∧ t.responses = s.responses ++ [⟨.ok, w, []⟩] ∧ t.slots = s.slots ∧ t.out = s.out) ∧
  (∀ (i : Instr) (s t : State) (r : Request) (rest : List HostAction) (sid : Byte) (resp : Response),
    IsAccessor i sid → s.inbox = .request r :: rest → decode s.nSessions r = .ok i → step s = .next t →
    t.responses = s.responses ++ [resp] → resp.kind = .ok) ∧
  ∀ (i : Instr) (is : List Instr) (s t u v : State) (sid : Byte) (r r' : Response), IsAccessor i sid →
    (∀ j ∈ is, ∀ b, j ≠ .feed sid b) →
    exec i s = .next t → t.responses = s.responses ++ [r] →
    runInstrs is t = .next u → exec i u = .next v → v.responses = u.responses ++ [r'] → r' = r

/-- 43_accessors.md R135: what RD_LAST returns, by when it is read: after reset, before any accepted length byte (the parser
looks for a header or a length, and no frame has ended); and then from a session in `WaitHeader` whose pending pair is the previous
frame's. -/
def Obligations.RdLastByTimeOfReading : Prop :=
  (∀ (s t : State) (sid : Byte) (sl sl' : Slot) (bs : List Byte) (rs : List Response),
    liveSlot? sid s = some sl → sl.session = Session.reset → runFeeds sid bs s = .next t →
    liveSlot? sid t = some sl' → sl'.session.state = .waitHeader ∨ sl'.session.state = .readLength →
    t.responses = s.responses ++ rs → (∀ r ∈ rs, r.kind = .ok) → RdLastReads sid t 0) ∧
  ∀ (s : State) (sid : Byte) (sl : Slot), liveSlot? sid s = some sl → sl.session.state = .waitHeader →
    (∀ t, runFeeds sid [0xAF] s = .next t →
      RdLastReads sid t (sl.session.pendingLength.setWidth 32 <<< 8 ||| sl.session.pendingCommand.setWidth 32)) ∧
    (∀ t (l : Byte), s.maxPayload.val < l.toNat → runFeeds sid [0xAF, l] s = .next t →
      RdLastReads sid t (sl.session.pendingLength.setWidth 32 <<< 8 ||| sl.session.pendingCommand.setWidth 32)) ∧
    (∀ t (l : Byte), l.toNat ≤ s.maxPayload.val → runFeeds sid [0xAF, l] s = .next t →
      RdLastReads sid t (l.setWidth 32 <<< 8 ||| sl.session.pendingCommand.setWidth 32)) ∧
    (∀ t (l c : Byte) (q : List Byte), l.toNat ≤ s.maxPayload.val → q.length ≤ l.toNat →
      runFeeds sid ([0xAF, l, c] ++ q) s = .next t →
      RdLastReads sid t (l.setWidth 32 <<< 8 ||| c.setWidth 32)) ∧
    ∀ t (l c k : Byte) (q noise : List Byte), l.toNat ≤ s.maxPayload.val → q.length = l.toNat → 0xAF ∉ noise →
      runFeeds sid ([0xAF, l, c] ++ q ++ [k] ++ noise) s = .next t →
      RdLastReads sid t (l.setWidth 32 <<< 8 ||| c.setWidth 32)

/-! ## Conditions, responses and sessions -/

/-- 30_encoding.md R63: every request gets exactly one response, of the kind, word and bytes its table gives. -/
def Obligations.EveryRequestGetsOneResponse : Prop :=
  (ResponseKind.ok.code = 0x00 ∧ ResponseKind.frameReady.code = 0x01 ∧ ResponseKind.checksumError.code = 0x02 ∧
    ResponseKind.sizeExceeded.code = 0x10 ∧ ResponseKind.capacityViolation.code = 0x11 ∧
    ResponseKind.illegalRequest.code = 0xFF) ∧
  ∀ (s t : State) (r : Request) (rest : List HostAction), s.inbox = .request r :: rest → step s = .next t →
    ∃ resp, t.responses = s.responses ++ [resp] ∧
      (resp.kind = .illegalRequest ↔ ∃ e, decode s.nSessions r = .error e) ∧
      (resp.kind = .sizeExceeded ↔
        ∃ c p o, decode s.nSessions r = .ok (.packVar c p o) ∧ s.maxPayload.val < p.length) ∧
      (resp.kind = .capacityViolation ↔
        ∃ c p o, decode s.nSessions r = .ok (.packVar c p o) ∧ p.length ≤ s.maxPayload.val ∧ o.cap < p.length + 4) ∧
      (resp.kind = .frameReady ↔
        ∃ sid b sl, decode s.nSessions r = .ok (.feed sid b) ∧ liveSlot? sid s = some sl ∧
          sl.session.state = .readChecksum ∧ b = expectedChecksum sl.session (pendingPayload sid sl)) ∧
      (resp.kind = .checksumError ↔
        ∃ sid b sl, decode s.nSessions r = .ok (.feed sid b) ∧ liveSlot? sid s = some sl ∧
          sl.session.state = .readChecksum ∧ b ≠ expectedChecksum sl.session (pendingPayload sid sl)) ∧
      (∀ sid b sl, resp.kind = .frameReady → decode s.nSessions r = .ok (.feed sid b) → liveSlot? sid s = some sl →
        resp.word = sl.session.pendingLength.setWidth 32 <<< 8 ||| sl.session.pendingCommand.setWidth 32 ∧
        resp.bytes = pendingPayload sid sl ∧ resp.bytes.length = sl.session.pendingLength.toNat) ∧
      (resp.kind ≠ .ok → resp.kind ≠ .frameReady → resp.word = 0 ∧ resp.bytes = [])

/-- 60_exceptions.md R148: the order in which the conditions of one operation are chosen. -/
def Obligations.OneConditionPerOperation : Prop :=
  (∀ (s : State) (r : Request) (rest : List HostAction) (e : Illegal),
    s.inbox = .request r :: rest → decode s.nSessions r = .error e →
    step s = .next { s with inbox := rest, responses := s.responses ++ [⟨.illegalRequest, 0, []⟩] }) ∧
  (∀ (c : Byte) (p : List Byte) (o : OutBuf) (s : State), s.maxPayload.val < p.length → o.cap < p.length + 4 →
    exec (.packVar c p o) s = .next { s with responses := s.responses ++ [⟨.sizeExceeded, 0, []⟩] }) ∧
  ∀ (s t : State) (sid b : Byte) (sl : Slot), liveSlot? sid s = some sl → exec (.feed sid b) s = .next t →
    ∃ r, t.responses = s.responses ++ [r] ∧
      (sl.session.state = .readLength → s.maxPayload.val < b.toNat → r = ⟨.ok, 0, []⟩) ∧
      (sl.session.state ≠ .readChecksum → r.kind ≠ .frameReady ∧ r.kind ≠ .checksumError)

/-- 70_reset_and_hazards.md R169: an operation on a session that has not been reset is refused; after power-on every session has
been reset; and the stateless operations need no session at all. -/
def Obligations.SessionNotResetIsRefused : Prop :=
  (∀ (i : Instr) (s : State) (sid : Byte) (sl : Slot), i.session? = some sid → s.slots[sid.toNat]? = some sl →
    sl.resets = 0 → exec i s = .refused .sessionNotReset) ∧
  (∀ sl ∈ State.reset.slots, sl.resets ≠ 0) ∧
  ∀ (i : Instr) (s : State), i.session? = none → exec i s ≠ .refused .sessionNotReset

/-- 20_memory.md R44: requests that overlap in time are refused when two are operations on one session, and when two are packs
whose OUT buffers share an address. -/
def Obligations.OverlappingConflictsAreRefused : Prop :=
  ∀ (s : State) (rs : List Request) (rest : List HostAction) (r r' : Request) (i i' : Instr),
    s.inbox = .concurrent rs :: rest → [r, r'].Sublist rs →
    decode s.nSessions r = .ok i → decode s.nSessions r' = .ok i' →
    (∀ sid, i.session? = some sid → i'.session? = some sid → step s = .refused .concurrentSession) ∧
    ∀ o o' a, IsPack i o → IsPack i' o' → o.base ≤ a → a < o.base + o.cap → o'.base ≤ a → a < o'.base + o'.cap →
      step s = .refused .concurrentSession ∨ step s = .refused .overlappingOut

/-- Two overlapping requests that are served are independent: served in the other order they leave the same sessions and the same
OUT bytes, and each gets the same response (20_memory.md section 3; the order of the record is assumption log 7). -/
def Obligations.OverlappingOrderIsIrrelevant : Prop :=
  ∀ (s t : State) (r r' : Request) (rest : List HostAction), StateInv s →
    s.inbox = .concurrent [r, r'] :: rest → step s = .next t →
    ∃ u a b, step { s with inbox := .concurrent [r', r] :: rest } = .next u ∧
      u.slots = t.slots ∧ u.out = t.out ∧ u.maxPayload = t.maxPayload ∧ u.inbox = t.inbox ∧
      t.responses = s.responses ++ [a, b] ∧ u.responses = s.responses ++ [b, a]

/-- Sessions share no state: after any run of operations, session `sid` and the responses to its operations are what they would be
had only the operations on `sid` been issued (00_scope.md section 3, 20_memory.md section 3, 60_exceptions.md section 4). -/
def Obligations.SessionsDoNotInterfere : Prop :=
  ∀ (is : List Instr) (s t : State) (sid : Byte), runInstrs is s = .next t →
    ∃ t' rs, runInstrs (is.filter fun i => i.session? == some sid) s = .next t' ∧
      t.responses = s.responses ++ rs ∧ rs.length = is.length ∧
      t'.responses = s.responses ++ responsesTo sid is rs ∧ t'.slots[sid.toNat]? = t.slots[sid.toNat]?

/-- Responses once delivered never change, and a step never changes MAX_PAYLOAD or N_SESSIONS (20_memory.md section 4,
10_state.md section 4). -/
def Obligations.PastResponsesAndParametersPersist : Prop :=
  ∀ s t : State, step s = .next t →
    (∃ rs, t.responses = s.responses ++ rs) ∧ t.maxPayload = s.maxPayload ∧ t.nSessions = s.nSessions

/-! ## The invariant -/

/-- The invariant holds after power-on reset (10_state.md section 5). -/
def Obligations.ResetSatisfiesInvariant : Prop := StateInv State.reset

/-- Every step keeps the invariant: the session invariant of 10_state.md section 5, and the canonical form of every memory. -/
def Obligations.StepKeepsInvariant : Prop := ∀ s t : State, StateInv s → step s = .next t → StateInv t

/-- "No condition in this core is fatal" (60_exceptions.md section 1): from a state that satisfies the invariant no step faults
(the model's one fault is an access to a `BUF` index that does not exist, assumption log 6). -/
def Obligations.NoStepFaultsUnderInvariant : Prop := ∀ (s : State) (f : Fault), StateInv s → step s ≠ .fault f

/-- THE MODEL'S CHOICE (assumption log 6), no rule of the spec: a FEED that would write or read `BUF` at an index that does not
exist (20_memory.md section 1) faults. Only a session that breaks the invariant asks for one. -/
def Obligations.MissingBufIndexFaults : Prop :=
  ∀ (s : State) (sid b : Byte) (sl : Slot), liveSlot? sid s = some sl →
    (sl.session.state = .readPayload → s.maxPayload.val ≤ sl.session.writeIndex.toNat →
      exec (.feed sid b) s = .fault .bufIndexOutOfRange) ∧
    (sl.session.state = .readChecksum → s.maxPayload.val < sl.session.pendingLength.toNat →
      exec (.feed sid b) s = .fault .bufIndexOutOfRange)
end

