-- ==== Sys2Proof/Laws/Checksum.lean ====
section
/-! SUPPORT. The XOR reduction as a sum over the list, and the shape of a frame. -/

namespace Sys2Proof.Machine

theorem foldl_xor (q : List Byte) (a : Byte) : q.foldl (· ^^^ ·) a = a ^^^ xorReduce q := by
  induction q generalizing a with
  | nil => simp [xorReduce]
  | cons b q ih =>
    have h := ih (0x00 ^^^ b)
    rw [xorReduce, List.foldl_cons, List.foldl_cons, ih, h]
    simp [BitVec.xor_assoc]

@[simp] theorem xorReduce_nil : xorReduce [] = 0x00 := rfl

@[simp] theorem xorReduce_cons (b : Byte) (q : List Byte) : xorReduce (b :: q) = b ^^^ xorReduce q := by
  rw [xorReduce, List.foldl_cons, foldl_xor]; simp

@[simp] theorem xorReduce_append_list (q q' : List Byte) : xorReduce (q ++ q') = xorReduce q ^^^ xorReduce q' := by
  induction q with
  | nil => simp
  | cons b q ih => simp [ih, BitVec.xor_assoc]

@[simp] theorem frameWith_length (l c : Byte) (p : List Byte) : (frameWith l c p).length = p.length + 4 := by
  simp [frameWith]

@[simp] theorem frame_length (c : Byte) (p : List Byte) : (frame c p).length = p.length + 4 := by simp [frame]

theorem lengthByte_toNat {p : List Byte} {mp : Fin 256} (h : p.length ≤ mp.val) : (lengthByte p).toNat = p.length := by
  simp [lengthByte]; omega

end Sys2Proof.Machine
end

