-- ==== Sys2Proof/Laws/Decode.lean ====
section
/-! SUPPORT. The fields of a request word, and what a request can decode to. -/

namespace Sys2Proof

theorem requestWord_fields (sid b a op : Byte) :
    (requestWord sid b a op).extractLsb' 0 8 = op ∧ (requestWord sid b a op).extractLsb' 8 8 = a ∧
    (requestWord sid b a op).extractLsb' 16 8 = b ∧ (requestWord sid b a op).extractLsb' 24 8 = sid := by
  refine ⟨?_, ?_, ?_, ?_⟩ <;> refine BitVec.eq_of_getLsbD_eq fun k hk => ?_ <;>
    simp only [requestWord, BitVec.getLsbD_extractLsb', BitVec.getLsbD_append] <;> interval_cases k <;> simp

/-- A word is made of its four fields. -/
theorem requestWord_of_fields (w : Word) :
    requestWord (w.extractLsb' 24 8) (w.extractLsb' 16 8) (w.extractLsb' 8 8) (w.extractLsb' 0 8) = w := by
  refine BitVec.eq_of_getLsbD_eq fun k hk => ?_
  simp only [requestWord, BitVec.getLsbD_extractLsb', BitVec.getLsbD_append]
  interval_cases k <;> simp

theorem onSession_ok {n : Nat} {sid : Byte} {z : Bool} {i j : Instr} (h : onSession n sid z i = .ok j) :
    z = true ∧ sid.toNat < n ∧ j = i := by
  unfold onSession at h
  split at h
  · split at h
    · exact ⟨‹_›, ‹_›, by simpa using h.symm⟩
    · simp at h
  · simp at h

theorem stateless_ok {z : Bool} {i j : Instr} (h : stateless z i = .ok j) : z = true ∧ j = i := by
  unfold stateless at h
  split at h
  · exact ⟨‹_›, by simpa using h.symm⟩
  · simp at h

/-- Everything a request can decode to. -/
theorem decode_ok_cases {n : Nat} {r : Request} {i : Instr} (h : decode n r = .ok i) :
    (r.op = 0x01 ∧ r.b = 0 ∧ r.sid.toNat < n ∧ i = .feed r.sid r.a) ∨
    (r.op = 0x02 ∧ r.sid = 0 ∧ i = .packFixed r.a r.b r.out) ∨
    (r.op = 0x03 ∧ r.b = 0 ∧ r.sid = 0 ∧ i = .packVar r.a r.seq r.out) ∨
    (r.op = 0x04 ∧ r.a = 0 ∧ r.b = 0 ∧ r.sid = 0 ∧ i = .checksum r.seq) ∨
    (r.op = 0x05 ∧ r.a = 0 ∧ r.b = 0 ∧ r.sid.toNat < n ∧ i = .rdConnected r.sid) ∨
    (r.op = 0x06 ∧ r.a = 0 ∧ r.b = 0 ∧ r.sid.toNat < n ∧ i = .rdErrcnt r.sid) ∨
    (r.op = 0x07 ∧ r.a = 0 ∧ r.b = 0 ∧ r.sid.toNat < n ∧ i = .rdLast r.sid) := by
  unfold decode decodeFields at h
  split_ifs at h with h1 h2 h3 h4 h5 h6 h7
  · have := onSession_ok h; simp_all
  · have := stateless_ok h; simp_all
  · have := stateless_ok h; simp_all
  · have := stateless_ok h; simp_all
  · have := onSession_ok h; simp_all
  · have := onSession_ok h; simp_all
  · have := onSession_ok h; simp_all

end Sys2Proof
end

