-- ==== Sys2Proof/Laws/Memory.lean ====
section
/-! SUPPORT. The laws of a byte memory: read after write, and that writes keep the canonical form. -/

namespace Sys2Proof.Machine

theorem memRead_memWrite (m : Memory) (a k : Nat) (v : Byte) :
    memRead (memWrite m a v) k = if k = a then some v else memRead m k := by
  induction m with
  | nil => simp [memWrite, memRead]
  | cons c m ih =>
    obtain ⟨b, w⟩ := c
    simp only [memWrite]
    split_ifs <;> simp_all [memRead]

@[simp] theorem memRead_memWrite_same (m : Memory) (a : Nat) (v : Byte) : memRead (memWrite m a v) a = some v := by
  simp [memRead_memWrite]

theorem memRead_memWrite_other (m : Memory) {a k : Nat} (v : Byte) (h : k ≠ a) :
    memRead (memWrite m a v) k = memRead m k := by
  simp [memRead_memWrite, h]

/-- Everything a run of writes does: the written bytes, and all others as before. -/
theorem memRead_memWriteBytes (vs : List Byte) (m : Memory) (base k : Nat) :
    memRead (memWriteBytes m base vs) k =
      if base ≤ k ∧ k < base + vs.length then vs[k - base]? else memRead m k := by
  induction vs generalizing m base with
  | nil => simp only [memWriteBytes, List.length_nil]; rw [if_neg (by omega)]
  | cons v vs ih =>
    rw [memWriteBytes, ih, memRead_memWrite]
    by_cases h : k = base
    · subst h; simp
    by_cases h' : base + 1 ≤ k ∧ k < base + 1 + vs.length
    · have e : k - base = (k - (base + 1)) + 1 := by omega
      have h2 : base ≤ k ∧ k < base + (v :: vs).length := by simp; omega
      rw [if_pos h', if_pos h2, e]
      rfl
    · have h2 : ¬ (base ≤ k ∧ k < base + (v :: vs).length) := by simp; omega
      rw [if_neg h', if_neg h2, if_neg h]

theorem memWriteBytes_append (vs ws : List Byte) (m : Memory) (base : Nat) :
    memWriteBytes m base (vs ++ ws) = memWriteBytes (memWriteBytes m base vs) (base + vs.length) ws := by
  induction vs generalizing m base with
  | nil => rfl
  | cons v vs ih => simp [memWriteBytes, ih]; congr 1; omega

/-- The addresses of a memory after a write. -/
theorem mem_memWrite {m : Memory} {a : Nat} {v : Byte} {c : Host.Cell} (h : c ∈ memWrite m a v) :
    c = (a, v) ∨ c ∈ m := by
  induction m with
  | nil => simpa [memWrite] using h
  | cons d m ih =>
    simp only [memWrite] at h
    split_ifs at h <;> simp at h ⊢ <;> tauto

theorem memWrite_wf {m : Memory} (h : m.wf) (a : Nat) (v : Byte) : (memWrite m a v).wf := by
  induction m with
  | nil => simp [memWrite]
  | cons d m ih =>
    obtain ⟨b, w⟩ := d
    have hd := List.pairwise_cons.1 h
    simp only [memWrite]
    split_ifs with h1 h2
    · refine List.pairwise_cons.2 ⟨fun c hc => ?_, h⟩
      rcases List.mem_cons.1 hc with rfl | hc
      · exact h1
      · exact lt_trans h1 (hd.1 c hc)
    · subst h2; exact List.pairwise_cons.2 ⟨fun c hc => hd.1 c hc, hd.2⟩
    · refine List.pairwise_cons.2 ⟨fun c hc => ?_, ih hd.2⟩
      rcases mem_memWrite hc with rfl | hc
      · show b < a; omega
      · exact hd.1 c hc

theorem memWriteBytes_wf (vs : List Byte) {m : Memory} (h : m.wf) (base : Nat) : (memWriteBytes m base vs).wf := by
  induction vs generalizing m base with
  | nil => exact h
  | cons v vs ih => exact ih (memWrite_wf h base v) _

theorem memRead_eq_none_of_lt {m : Memory} {a : Nat} (h : ∀ c ∈ m, a < c.1) : memRead m a = none := by
  induction m with
  | nil => rfl
  | cons d m ih =>
    have := h d (by simp)
    rw [memRead, if_neg (by omega)]
    exact ih fun c hc => h c (by simp [hc])

/-- Canonical memories that read alike are equal. -/
theorem memory_ext {m m' : Memory} (h : m.wf) (h' : m'.wf) (e : ∀ a, memRead m a = memRead m' a) : m = m' := by
  induction m generalizing m' with
  | nil =>
    cases m' with
    | nil => rfl
    | cons d m' => have := e d.1; simp [memRead] at this
  | cons d m ih =>
    cases m' with
    | nil => have := e d.1; simp [memRead] at this
    | cons d' m' =>
      have hd := List.pairwise_cons.1 h
      have hd' := List.pairwise_cons.1 h'
      have key : d.1 = d'.1 := by
        rcases Nat.lt_trichotomy d.1 d'.1 with hlt | heq | hgt
        · have := e d.1
          rw [memRead, if_pos rfl, memRead_eq_none_of_lt] at this
          · simp at this
          · intro c hc
            rcases List.mem_cons.1 hc with rfl | hc
            · exact hlt
            · exact lt_trans hlt (hd'.1 c hc)
        · exact heq
        · have := e d'.1
          rw [memRead_eq_none_of_lt (m := d :: m), memRead, if_pos rfl] at this
          · simp at this
          · intro c hc
            rcases List.mem_cons.1 hc with rfl | hc
            · exact hgt
            · exact lt_trans hgt (hd.1 c hc)
      have val : d.2 = d'.2 := by
        have := e d.1
        rw [memRead, if_pos rfl, key, memRead, if_pos rfl] at this
        simpa using this
      have htail : m = m' := by
        refine ih hd.2 hd'.2 fun a => ?_
        have ea := e a
        rw [memRead, memRead, key] at ea
        by_cases ha : a = d'.1
        · subst ha
          rw [memRead_eq_none_of_lt fun c hc => key ▸ hd.1 c hc, memRead_eq_none_of_lt fun c hc => hd'.1 c hc]
        · simpa [ha] using ea
      rw [htail, Prod.ext key val]

/-! `BUF`. -/

@[simp] theorem bufBytes_length (free : Nat → Byte) (m : Memory) (n : Nat) : (bufBytes free m n).length = n := by
  simp [bufBytes]

/-- `BUF[0..n)` is `p` when `p` is what was written there. -/
theorem bufBytes_of_written {free : Nat → Byte} {m : Memory} {p : List Byte}
    (h : ∀ k, k < p.length → memRead m k = p[k]?) : bufBytes free m p.length = p := by
  refine List.ext_getElem? fun k => ?_
  by_cases hk : k < p.length
  · simp [bufBytes, hk, bufByte, h k hk]
  · simp [bufBytes, hk]

theorem bufBytes_memWriteBytes (free : Nat → Byte) (m : Memory) (p : List Byte) :
    bufBytes free (memWriteBytes m 0 p) p.length = p :=
  bufBytes_of_written fun k hk => by simp [memRead_memWriteBytes, hk]

theorem bufWrite_ok {mp : Fin 256} {m m' : Memory} {i : Nat} {v : Byte} (h : bufWrite mp m i v = .ok m') :
    i < mp.val ∧ m' = memWrite m i v := by
  unfold bufWrite at h
  split at h
  · exact ⟨‹_›, by simpa using h.symm⟩
  · simp at h

theorem bufRead_ok {mp : Fin 256} {free : Nat → Byte} {m : Memory} {n : Nat} {p : List Byte}
    (h : bufRead mp free m n = .ok p) : n ≤ mp.val ∧ p = bufBytes free m n := by
  unfold bufRead at h
  split at h
  · exact ⟨‹_›, by simpa using h.symm⟩
  · simp at h

end Sys2Proof.Machine
end

