-- ==== Sys2Proof/Laws/State.lean ====
section
/-! SUPPORT. What each update of the state leaves in each field. -/

namespace Sys2Proof.Machine

@[simp] theorem respond_maxPayload (r : Response) (s : State) : (respond r s).maxPayload = s.maxPayload := rfl
@[simp] theorem respond_slots (r : Response) (s : State) : (respond r s).slots = s.slots := rfl
@[simp] theorem respond_out (r : Response) (s : State) : (respond r s).out = s.out := rfl
@[simp] theorem respond_inbox (r : Response) (s : State) : (respond r s).inbox = s.inbox := rfl
@[simp] theorem respond_responses (r : Response) (s : State) : (respond r s).responses = s.responses ++ [r] := rfl
@[simp] theorem respond_nSessions (r : Response) (s : State) : (respond r s).nSessions = s.nSessions := rfl

@[simp] theorem emitFrame_maxPayload (o : OutBuf) (f : List Byte) (s : State) :
    (emitFrame o f s).maxPayload = s.maxPayload := rfl
@[simp] theorem emitFrame_slots (o : OutBuf) (f : List Byte) (s : State) : (emitFrame o f s).slots = s.slots := rfl
@[simp] theorem emitFrame_out (o : OutBuf) (f : List Byte) (s : State) :
    (emitFrame o f s).out = memWriteBytes s.out o.base f := rfl
@[simp] theorem emitFrame_inbox (o : OutBuf) (f : List Byte) (s : State) : (emitFrame o f s).inbox = s.inbox := rfl
@[simp] theorem emitFrame_responses (o : OutBuf) (f : List Byte) (s : State) :
    (emitFrame o f s).responses = s.responses ++ [okResponse (BitVec.ofNat 32 f.length) f] := rfl
@[simp] theorem emitFrame_nSessions (o : OutBuf) (f : List Byte) (s : State) :
    (emitFrame o f s).nSessions = s.nSessions := rfl

/-! The field lemmas of `setSession` stand in Laws/Session.lean. -/

@[simp] theorem inbox_nSessions (s : State) (q : List HostAction) : ({ s with inbox := q } : State).nSessions = s.nSessions :=
  rfl

/-! The flag and the counter. -/

@[simp] theorem recordMatch_state (x : Session) : (recordMatch x).state = x.state := rfl
@[simp] theorem recordMatch_pendingLength (x : Session) : (recordMatch x).pendingLength = x.pendingLength := rfl
@[simp] theorem recordMatch_pendingCommand (x : Session) : (recordMatch x).pendingCommand = x.pendingCommand := rfl
@[simp] theorem recordMatch_writeIndex (x : Session) : (recordMatch x).writeIndex = x.writeIndex := rfl
@[simp] theorem recordMatch_checksumErrorCount (x : Session) : (recordMatch x).checksumErrorCount = x.checksumErrorCount := rfl
@[simp] theorem recordMatch_connected (x : Session) : (recordMatch x).connected = true := rfl
@[simp] theorem recordMatch_buf (x : Session) : (recordMatch x).buf = x.buf := rfl
@[simp] theorem recordMismatch_state (x : Session) : (recordMismatch x).state = x.state := rfl
@[simp] theorem recordMismatch_pendingLength (x : Session) : (recordMismatch x).pendingLength = x.pendingLength := rfl
@[simp] theorem recordMismatch_pendingCommand (x : Session) : (recordMismatch x).pendingCommand = x.pendingCommand := rfl
@[simp] theorem recordMismatch_writeIndex (x : Session) : (recordMismatch x).writeIndex = x.writeIndex := rfl
@[simp] theorem recordMismatch_checksumErrorCount (x : Session) : (recordMismatch x).checksumErrorCount = x.checksumErrorCount + 1 := rfl
@[simp] theorem recordMismatch_connected (x : Session) : (recordMismatch x).connected = false := rfl
@[simp] theorem recordMismatch_buf (x : Session) : (recordMismatch x).buf = x.buf := rfl

end Sys2Proof.Machine
end

