-- ==== Sys2Proof/Laws/Session.lean ====
section
/-! SUPPORT. Sessions in a state: finding one, writing one, and what a session operation does with one. -/

namespace Sys2Proof.Machine

@[simp] theorem setSession_maxPayload (sid : Byte) (x : Session) (s : State) :
    (setSession sid x s).maxPayload = s.maxPayload := rfl
@[simp] theorem setSession_out (sid : Byte) (x : Session) (s : State) : (setSession sid x s).out = s.out := rfl
@[simp] theorem setSession_inbox (sid : Byte) (x : Session) (s : State) : (setSession sid x s).inbox = s.inbox := rfl
@[simp] theorem setSession_responses (sid : Byte) (x : Session) (s : State) :
    (setSession sid x s).responses = s.responses := rfl
@[simp] theorem setSession_nSessions (sid : Byte) (x : Session) (s : State) :
    (setSession sid x s).nSessions = s.nSessions := by simp [setSession, State.nSessions]

theorem setSession_slot_other (sid : Byte) (x : Session) (s : State) {j : Nat} (h : j ≠ sid.toNat) :
    (setSession sid x s).slots[j]? = s.slots[j]? := by
  simp [setSession, Ne.symm h]

theorem setSession_slot_same (sid : Byte) (x : Session) {s : State} {sl : Slot} (h : s.slots[sid.toNat]? = some sl) :
    (setSession sid x s).slots[sid.toNat]? = some ⟨sl.resets, x⟩ := by
  simp [setSession, h]

theorem modify_self {α : Type} (f : α → α) (l : List α) (i : Nat) (h : ∀ a, l[i]? = some a → f a = a) :
    l.modify i f = l := by
  refine List.ext_getElem? fun j => ?_
  by_cases hj : i = j
  · subst hj
    cases e : l[i]? with
    | none => simp [e]
    | some a => simp [e, h a e]
  · simp [hj]

/-- Writing back what is there changes nothing. -/
theorem setSession_self {sid : Byte} {s : State} {sl : Slot} (h : s.slots[sid.toNat]? = some sl) :
    setSession sid sl.session s = s := by
  unfold setSession
  rw [modify_self _ _ _ fun a ha => by rw [h] at ha; cases ha; rfl]

theorem setSession_setSession (sid : Byte) (x y : Session) (s : State) :
    setSession sid y (setSession sid x s) = setSession sid y s := by
  simp only [setSession]
  congr 1
  refine List.ext_getElem? fun j => ?_
  simp only [List.getElem?_modify]
  by_cases hj : sid.toNat = j <;> simp [hj, Function.comp_def]

theorem setSession_respond (sid : Byte) (x : Session) (r : Response) (s : State) :
    setSession sid x (respond r s) = respond r (setSession sid x s) := rfl

/-- A live session is a slot the block has, reset at least once. -/
theorem liveSlot?_eq_some {sid : Byte} {s : State} {sl : Slot} :
    liveSlot? sid s = some sl ↔ s.slots[sid.toNat]? = some sl ∧ sl.resets ≠ 0 := by
  unfold liveSlot?
  cases h : s.slots[sid.toNat]? with
  | none => simp
  | some sl' =>
    by_cases h0 : sl'.resets = 0
    · simp only [h0, if_pos]
      constructor
      · simp
      · rintro ⟨e, hr⟩; cases e; exact absurd h0 hr
    · simp only [h0, if_neg, not_false_eq_true]
      constructor
      · intro e; cases e; exact ⟨rfl, h0⟩
      · exact fun e => e.1

theorem liveSlot?_congr {sid : Byte} {s t : State} (h : s.slots[sid.toNat]? = t.slots[sid.toNat]?) :
    liveSlot? sid s = liveSlot? sid t := by simp [liveSlot?, h]

@[simp] theorem liveSlot?_respond (sid : Byte) (r : Response) (s : State) :
    liveSlot? sid (respond r s) = liveSlot? sid s := rfl

theorem liveSlot?_setSession {sid : Byte} {x : Session} {s : State} {sl : Slot} (h : liveSlot? sid s = some sl) :
    liveSlot? sid (setSession sid x s) = some ⟨sl.resets, x⟩ := by
  have h' := liveSlot?_eq_some.1 h
  exact liveSlot?_eq_some.2 ⟨setSession_slot_same sid x h'.1, h'.2⟩

theorem byte_toNat_ne {a b : Byte} (h : a ≠ b) : a.toNat ≠ b.toNat := fun e => h (BitVec.eq_of_toNat_eq e)

theorem withSession_live {sid : Byte} {s : State} {sl : Slot} (h : liveSlot? sid s = some sl) (k : Slot → Result) :
    withSession sid s k = k sl := by
  have h' := liveSlot?_eq_some.1 h
  simp [withSession, h'.1, h'.2]

/-- Everything a session operation can do: run on a live session, refuse a session never reset, or answer
`IllegalRequest` when there is no such session. -/
theorem withSession_cases (sid : Byte) (s : State) (k : Slot → Result) :
    (∃ sl, liveSlot? sid s = some sl ∧ withSession sid s k = k sl) ∨
    (∃ sl, s.slots[sid.toNat]? = some sl ∧ sl.resets = 0 ∧ withSession sid s k = .refused .sessionNotReset) ∨
    (s.slots[sid.toNat]? = none ∧ withSession sid s k = .next (respond (bare .illegalRequest) s)) := by
  cases h : s.slots[sid.toNat]? with
  | none => exact .inr (.inr ⟨rfl, by simp [withSession, h]⟩)
  | some sl =>
    by_cases h0 : sl.resets = 0
    · exact .inr (.inl ⟨sl, rfl, h0, by simp [withSession, h, h0]⟩)
    · exact .inl ⟨sl, liveSlot?_eq_some.2 ⟨h, h0⟩, by simp [withSession, h, h0]⟩

end Sys2Proof.Machine
end

