-- ==== Sys2Proof/Laws/Exec.lean ====
section
/-! SUPPORT. What a transition and an operation can do, each said once. -/

namespace Sys2Proof.Machine

/-! The parser. -/

/-- Every transition of the parser that does not fault is a row of the table of 42_parser.md R117. -/
theorem feedStep_cases {mp : Fin 256} {free : Nat → Byte} {b : Byte} {x y : Session} {r : Response}
    (h : feedStep mp free b x = .ok (y, r)) :
    (x.state = .waitHeader ∧ b = 0xAF ∧ y = { x with writeIndex := 0, state := .readLength } ∧ r = noEvent) ∨
    (x.state = .waitHeader ∧ b ≠ 0xAF ∧ y = x ∧ r = noEvent) ∨
    (x.state = .readLength ∧ b.toNat ≤ mp.val ∧
      y = { x with pendingLength := b, writeIndex := 0, state := .readCommand } ∧ r = noEvent) ∨
    (x.state = .readLength ∧ mp.val < b.toNat ∧ y = { x with state := .waitHeader } ∧ r = noEvent) ∨
    (x.state = .readCommand ∧
      y = { x with pendingCommand := b,
                   state := if x.pendingLength = 0 then .readChecksum else .readPayload } ∧ r = noEvent) ∨
    (x.state = .readPayload ∧ x.writeIndex.toNat < mp.val ∧
      y = { x with buf := memWrite x.buf x.writeIndex.toNat b, writeIndex := x.writeIndex + 1,
                   state := if x.writeIndex + 1 = x.pendingLength then .readChecksum else .readPayload } ∧ r = noEvent) ∨
    (x.state = .readChecksum ∧ x.pendingLength.toNat ≤ mp.val ∧
      b = expectedChecksum x (bufBytes free x.buf x.pendingLength.toNat) ∧
      y = { x with connected := true, state := .waitHeader } ∧
      r = frameReady x.pendingLength x.pendingCommand (bufBytes free x.buf x.pendingLength.toNat)) ∨
    (x.state = .readChecksum ∧ x.pendingLength.toNat ≤ mp.val ∧
      b ≠ expectedChecksum x (bufBytes free x.buf x.pendingLength.toNat) ∧
      y = { x with connected := false, checksumErrorCount := x.checksumErrorCount + 1, state := .waitHeader } ∧
      r = bare .checksumError) := by
  cases hs : x.state <;> simp only [feedStep, hs] at h
  case waitHeader =>
    simp only [waitHeaderStep, Except.ok.injEq] at h
    split at h
    · cases h; exact .inl ⟨rfl, ‹_›, rfl, rfl⟩
    · cases h; exact .inr (.inl ⟨rfl, ‹_›, rfl, rfl⟩)
  case readLength =>
    simp only [readLengthStep, Except.ok.injEq] at h
    split at h
    · cases h; exact .inr (.inr (.inl ⟨rfl, ‹_›, rfl, rfl⟩))
    · cases h; exact .inr (.inr (.inr (.inl ⟨rfl, by omega, rfl, rfl⟩)))
  case readCommand =>
    simp only [readCommandStep, Except.ok.injEq] at h
    cases h; exact .inr (.inr (.inr (.inr (.inl ⟨rfl, rfl, rfl⟩))))
  case readPayload =>
    simp only [readPayloadStep] at h
    split at h
    · simp at h
    · next hb =>
      obtain ⟨hlt, rfl⟩ := bufWrite_ok hb
      cases h; exact .inr (.inr (.inr (.inr (.inr (.inl ⟨rfl, hlt, rfl, rfl⟩)))))
  case readChecksum =>
    simp only [readChecksumStep] at h
    split at h
    · simp at h
    · next hb =>
      obtain ⟨hle, rfl⟩ := bufRead_ok hb
      simp only [checksumOutcome, Except.ok.injEq] at h
      split at h
      · cases h; exact .inr (.inr (.inr (.inr (.inr (.inr (.inl ⟨rfl, hle, ‹_›, rfl, rfl⟩))))))
      · cases h; exact .inr (.inr (.inr (.inr (.inr (.inr (.inr ⟨rfl, hle, ‹_›, rfl, rfl⟩))))))

theorem checksumOutcome_match {chk : Byte} {p : List Byte} {b : Byte} (x : Session) (h : b = chk) :
    checksumOutcome chk p b x =
      ({ x with connected := true, state := .waitHeader }, frameReady x.pendingLength x.pendingCommand p) := by
  rw [checksumOutcome, if_pos h]; rfl

theorem checksumOutcome_mismatch {chk : Byte} {p : List Byte} {b : Byte} (x : Session) (h : b ≠ chk) :
    checksumOutcome chk p b x =
      ({ x with connected := false, checksumErrorCount := x.checksumErrorCount + 1, state := .waitHeader },
        bare .checksumError) := by
  rw [checksumOutcome, if_neg h]; rfl

/-- The ReadChecksum transition, when the pending length is within the buffer. -/
theorem feedStep_readChecksum {mp : Fin 256} {free : Nat → Byte} {b : Byte} {x : Session} (hs : x.state = .readChecksum)
    (hle : x.pendingLength.toNat ≤ mp.val) :
    feedStep mp free b x =
      .ok (checksumOutcome (expectedChecksum x (bufBytes free x.buf x.pendingLength.toNat))
        (bufBytes free x.buf x.pendingLength.toNat) b x) := by
  simp only [feedStep, hs, readChecksumStep, bufRead, if_pos hle]

/-- The ReadPayload transition, when the write is within the buffer. -/
theorem feedStep_readPayload {mp : Fin 256} {free : Nat → Byte} {b : Byte} {x : Session} (hs : x.state = .readPayload)
    (hlt : x.writeIndex.toNat < mp.val) :
    feedStep mp free b x =
      .ok ({ x with buf := memWrite x.buf x.writeIndex.toNat b, writeIndex := x.writeIndex + 1,
                    state := if x.writeIndex + 1 = x.pendingLength then .readChecksum else .readPayload }, noEvent) := by
  simp only [feedStep, hs, readPayloadStep, bufWrite, if_pos hlt]

/-! Operations. -/

/-- `FEED` on a live session performs one transition. -/
theorem exec_feed_live {sid b : Byte} {s : State} {sl : Slot} (h : liveSlot? sid s = some sl) :
    exec (.feed sid b) s =
      match feedStep s.maxPayload (freeBuf sid sl) b sl.session with
      | .error f => .fault f
      | .ok t => .next (respond t.2 (setSession sid t.1 s)) := withSession_live h _

theorem exec_feed_ok {sid b : Byte} {s : State} {sl : Slot} {y : Session} {r : Response}
    (h : liveSlot? sid s = some sl) (hf : feedStep s.maxPayload (freeBuf sid sl) b sl.session = .ok (y, r)) :
    exec (.feed sid b) s = .next (respond r (setSession sid y s)) := by rw [exec_feed_live h, hf]

/-- An accessor on a live session answers its word. -/
theorem readSession_live {sid : Byte} {w : Session → Word} {s : State} {sl : Slot} (h : liveSlot? sid s = some sl) :
    readSession sid w s = .next (respond (okResponse (w sl.session) []) s) := withSession_live h _

/-- Everything an operation that answers a next state can do: a transition of a live session (only `FEED`), a response and
nothing else, or a frame in the caller's buffer (only a pack). -/
theorem exec_cases {i : Instr} {s t : State} (h : exec i s = .next t) :
    (∃ sid b sl y r, i = .feed sid b ∧ liveSlot? sid s = some sl ∧
      feedStep s.maxPayload (freeBuf sid sl) b sl.session = .ok (y, r) ∧ t = respond r (setSession sid y s)) ∨
    (∃ r, t = respond r s) ∨
    ∃ o f, outBuf? i = some o ∧ f.length ≤ o.cap ∧ t = emitFrame o f s := by
  cases i with
  | feed sid b =>
    rcases withSession_cases sid s (fun sl =>
      match feedStep s.maxPayload (freeBuf sid sl) b sl.session with
      | .error f => .fault f
      | .ok t => .next (respond t.2 (setSession sid t.1 s))) with ⟨sl, hl, e⟩ | ⟨sl, _, _, e⟩ | ⟨_, e⟩
    · rw [exec_feed_live hl] at h
      split at h
      · simp at h
      · next y hy => cases h; exact .inl ⟨sid, b, sl, y.1, y.2, rfl, hl, hy, rfl⟩
    · rw [show exec (.feed sid b) s = _ from e] at h; simp at h
    · rw [show exec (.feed sid b) s = _ from e] at h; cases h; exact .inr (.inl ⟨_, rfl⟩)
  | packFixed c d o =>
    simp only [exec, execPackFixed] at h
    split at h
    · simp at h
    · cases h; exact .inr (.inr ⟨o, _, rfl, by simp; omega, rfl⟩)
  | packVar c p o =>
    simp only [exec, execPackVar] at h
    split at h
    · cases h; exact .inr (.inl ⟨_, rfl⟩)
    · split at h
      · cases h; exact .inr (.inl ⟨_, rfl⟩)
      · cases h; exact .inr (.inr ⟨o, _, rfl, by simp; omega, rfl⟩)
  | checksum q => cases h; exact .inr (.inl ⟨_, rfl⟩)
  | rdConnected sid =>
    rcases withSession_cases sid s (fun sl => .next (respond (okResponse (connectedWord sl.session) []) s))
      with ⟨sl, _, e⟩ | ⟨sl, _, _, e⟩ | ⟨_, e⟩ <;> rw [show exec (.rdConnected sid) s = _ from e] at h
    · cases h; exact .inr (.inl ⟨_, rfl⟩)
    · simp at h
    · cases h; exact .inr (.inl ⟨_, rfl⟩)
  | rdErrcnt sid =>
    rcases withSession_cases sid s (fun sl => .next (respond (okResponse sl.session.checksumErrorCount []) s))
      with ⟨sl, _, e⟩ | ⟨sl, _, _, e⟩ | ⟨_, e⟩ <;> rw [show exec (.rdErrcnt sid) s = _ from e] at h
    · cases h; exact .inr (.inl ⟨_, rfl⟩)
    · simp at h
    · cases h; exact .inr (.inl ⟨_, rfl⟩)
  | rdLast sid =>
    rcases withSession_cases sid s (fun sl => .next (respond
        (okResponse (lengthCommandWord sl.session.pendingLength sl.session.pendingCommand) []) s))
      with ⟨sl, _, e⟩ | ⟨sl, _, _, e⟩ | ⟨_, e⟩ <;> rw [show exec (.rdLast sid) s = _ from e] at h
    · cases h; exact .inr (.inl ⟨_, rfl⟩)
    · simp at h
    · cases h; exact .inr (.inl ⟨_, rfl⟩)

/-- A `FEED` on a live session that answers a next state performed a transition. -/
theorem exec_feed_next {sid b : Byte} {s t : State} {sl : Slot} (hl : liveSlot? sid s = some sl)
    (h : exec (.feed sid b) s = .next t) :
    ∃ y r, feedStep s.maxPayload (freeBuf sid sl) b sl.session = .ok (y, r) ∧ t = respond r (setSession sid y s) := by
  rw [exec_feed_live hl] at h
  split at h
  · simp at h
  · next y hy => cases h; exact ⟨y.1, y.2, hy, rfl⟩

theorem exec_next_maxPayload {i : Instr} {s t : State} (h : exec i s = .next t) : t.maxPayload = s.maxPayload := by
  rcases exec_cases h with ⟨_, _, _, _, _, _, _, _, rfl⟩ | ⟨_, rfl⟩ | ⟨_, _, _, _, rfl⟩ <;> rfl

theorem exec_next_nSessions {i : Instr} {s t : State} (h : exec i s = .next t) : t.nSessions = s.nSessions := by
  rcases exec_cases h with ⟨_, _, _, _, _, _, _, _, rfl⟩ | ⟨_, rfl⟩ | ⟨_, _, _, _, rfl⟩ <;> simp

theorem exec_next_inbox {i : Instr} {s t : State} (h : exec i s = .next t) : t.inbox = s.inbox := by
  rcases exec_cases h with ⟨_, _, _, _, _, _, _, _, rfl⟩ | ⟨_, rfl⟩ | ⟨_, _, _, _, rfl⟩ <;> rfl

theorem exec_next_responses {i : Instr} {s t : State} (h : exec i s = .next t) :
    ∃ r, t.responses = s.responses ++ [r] := by
  rcases exec_cases h with ⟨_, _, _, _, _, _, _, _, rfl⟩ | ⟨_, rfl⟩ | ⟨_, _, _, _, rfl⟩ <;> exact ⟨_, rfl⟩

/-! Runs. -/

theorem runInstrs_cons (i : Instr) (is : List Instr) (s : State) :
    runInstrs (i :: is) s =
      match exec i s with
      | .next t => runInstrs is t
      | .fault f => .fault f
      | .refused e => .refused e := rfl

theorem runInstrs_cons_next {i : Instr} {is : List Instr} {s t : State} (h : exec i s = .next t) :
    runInstrs (i :: is) s = runInstrs is t := by rw [runInstrs_cons, h]

/-- A run that ends in a state ran its first operation to a next state. -/
theorem runInstrs_cons_inv {i : Instr} {is : List Instr} {s u : State} (h : runInstrs (i :: is) s = .next u) :
    ∃ t, exec i s = .next t ∧ runInstrs is t = .next u := by
  rw [runInstrs_cons] at h
  split at h
  · exact ⟨_, ‹_›, h⟩
  · simp at h
  · simp at h

theorem runInstrs_append {is js : List Instr} {s t : State} (h : runInstrs is s = .next t) :
    runInstrs (is ++ js) s = runInstrs js t := by
  induction is generalizing s with
  | nil => cases h; rfl
  | cons i is ih =>
    obtain ⟨u, hu, hr⟩ := runInstrs_cons_inv h
    rw [List.cons_append, runInstrs_cons_next hu, ih hr]

@[simp] theorem runFeeds_nil (sid : Byte) (s : State) : runFeeds sid [] s = .next s := rfl

theorem runFeeds_cons_next {sid b : Byte} {bs : List Byte} {s t : State} (h : exec (.feed sid b) s = .next t) :
    runFeeds sid (b :: bs) s = runFeeds sid bs t := runInstrs_cons_next h

/-- The state after a run of `FEED`s that left the session at `y` and answered `rs`. -/
def afterFeeds (sid : Byte) (y : Session) (rs : List Response) (s : State) : State :=
  { setSession sid y s with responses := s.responses ++ rs }

theorem liveSlot?_afterFeeds {sid : Byte} {y : Session} {rs : List Response} {s : State} {sl : Slot}
    (h : liveSlot? sid s = some sl) : liveSlot? sid (afterFeeds sid y rs s) = some ⟨sl.resets, y⟩ :=
  liveSlot?_setSession (s := s) h

theorem feedList_cons {mp : Fin 256} {free : Nat → Byte} {b : Byte} {bs : List Byte} {x y z : Session} {r : Response}
    {rs : List Response} (h : feedStep mp free b x = .ok (y, r)) (h' : feedList mp free bs y = .ok (z, rs)) :
    feedList mp free (b :: bs) x = .ok (z, r :: rs) := by simp [feedList, h, h']

theorem feedList_cons_inv {mp : Fin 256} {free : Nat → Byte} {b : Byte} {bs : List Byte} {x z : Session}
    {rs : List Response} (h : feedList mp free (b :: bs) x = .ok (z, rs)) :
    ∃ y r rs', feedStep mp free b x = .ok (y, r) ∧ feedList mp free bs y = .ok (z, rs') ∧ rs = r :: rs' := by
  rw [feedList] at h
  split at h
  · simp at h
  · next y r hf =>
    split at h
    · simp at h
    · next hl => cases h; exact ⟨_, _, _, hf, hl, rfl⟩

theorem feedList_append {mp : Fin 256} {free : Nat → Byte} {bs bs' : List Byte} {x y z : Session}
    {rs rs' : List Response} (h : feedList mp free bs x = .ok (y, rs)) (h' : feedList mp free bs' y = .ok (z, rs')) :
    feedList mp free (bs ++ bs') x = .ok (z, rs ++ rs') := by
  induction bs generalizing x rs with
  | nil => cases h; exact h'
  | cons b bs ih =>
    obtain ⟨u, r, rs'', hf, hl, rfl⟩ := feedList_cons_inv h
    exact feedList_cons hf (ih hl)

/-- A run of `FEED`s on a live session runs the parser over the byte stream. -/
theorem runFeeds_of_feedList {sid : Byte} {bs : List Byte} {s : State} {sl : Slot} {y : Session} {rs : List Response}
    (hl : liveSlot? sid s = some sl) (h : feedList s.maxPayload (freeBuf sid sl) bs sl.session = .ok (y, rs)) :
    runFeeds sid bs s = .next (afterFeeds sid y rs s) := by
  induction bs generalizing s sl rs with
  | nil => cases h; simp [afterFeeds, setSession_self (liveSlot?_eq_some.1 hl).1]
  | cons b bs ih =>
    obtain ⟨x, r, rs', hf, hr, rfl⟩ := feedList_cons_inv h
    rw [runFeeds_cons_next (exec_feed_ok hl hf), ih (s := respond r (setSession sid x s)) (liveSlot?_setSession hl) hr]
    simp only [afterFeeds, setSession_respond, setSession_setSession]
    simp

/-- A run of `FEED`s on a live session that ends in a state ran the parser over the byte stream. -/
theorem feedList_of_runFeeds {sid : Byte} {bs : List Byte} {s t : State} {sl : Slot} (hl : liveSlot? sid s = some sl)
    (h : runFeeds sid bs s = .next t) :
    ∃ y rs, feedList s.maxPayload (freeBuf sid sl) bs sl.session = .ok (y, rs) ∧ t = afterFeeds sid y rs s := by
  induction bs generalizing s sl with
  | nil => cases h; exact ⟨sl.session, [], rfl, by simp [afterFeeds, setSession_self (liveSlot?_eq_some.1 hl).1]⟩
  | cons b bs ih =>
    obtain ⟨u, hu, hr⟩ := runInstrs_cons_inv h
    obtain ⟨x, r, hf, rfl⟩ := exec_feed_next hl hu
    obtain ⟨y, rs, hy, rfl⟩ := ih (s := respond r (setSession sid x s)) (liveSlot?_setSession hl) hr
    refine ⟨y, r :: rs, feedList_cons hf hy, ?_⟩
    simp only [afterFeeds, setSession_respond, setSession_setSession]
    simp

end Sys2Proof.Machine
end

