-- ==== Sys2Proof/Laws/Interface.lean ====
section
/-! SUPPORT. What serving a request can do: a response, at most one change of one session's slot, and at most one write to
the caller's buffer; and that it depends on the parameters and that slot alone. -/

namespace Sys2Proof.Machine

theorem step_request {s : State} {r : Request} {rest : List HostAction} (h : s.inbox = .request r :: rest) :
    step s = serveRequest r { s with inbox := rest } := by simp only [step, nextAction, h, perform]

theorem serveAll_cons_inv {r : Request} {rs : List Request} {s t : State} (h : serveAll (r :: rs) s = .next t) :
    ∃ u, serveRequest r s = .next u ∧ serveAll rs u = .next t := by
  rw [serveAll] at h
  split at h
  · exact ⟨_, ‹_›, h⟩
  · cases h
  · cases h

/-- A response, a change `g` of slot `k`, and bytes written at an address. -/
def applyEffect (r : Response) (k : Option Nat) (g : Slot → Slot) (w : Option (Nat × List Byte)) (s : State) : State :=
  { s with
    responses := s.responses ++ [r]
    slots := match k with | none => s.slots | some j => s.slots.modify j g
    out := match w with | none => s.out | some (b, f) => memWriteBytes s.out b f }

theorem applyEffect_id (r : Response) (j : Nat) (s : State) : applyEffect r (some j) id none s = respond r s := by
  have h : s.slots.modify j id = s.slots := modify_self _ _ _ fun _ _ => rfl
  simp only [applyEffect, h]; rfl

theorem applyEffect_nSessions (r : Response) (k : Option Nat) (g : Slot → Slot) (w : Option (Nat × List Byte)) (s : State) :
    (applyEffect r k g w s).nSessions = s.nSessions := by cases k <;> simp [applyEffect, State.nSessions]

/-- The bytes `w` lie in the output buffer of `i`. -/
def WritesWithin (i : Instr) (w : Option (Nat × List Byte)) : Prop :=
  w = none ∨ ∃ o f, outBuf? i = some o ∧ f.length ≤ o.cap ∧ w = some (o.base, f)

/-- A stateless operation that answers does the same in every state with that `MAX_PAYLOAD`. -/
theorem exec_stateless_effect {i : Instr} {s t : State} (hi : i.session? = none) (h : exec i s = .next t) :
    ∃ r w, WritesWithin i w ∧
      ∀ s' : State, s'.maxPayload = s.maxPayload → exec i s' = .next (applyEffect r none id w s') := by
  cases i with
  | packFixed c d o =>
    simp only [exec, execPackFixed] at h ⊢
    split at h
    · cases h
    · next h0 =>
      exact ⟨_, some (o.base, [Config.header, 0x01, c, d, Config.header ^^^ 0x01 ^^^ c ^^^ d]),
        .inr ⟨o, _, rfl, by simp; omega, rfl⟩, fun s' _ => by rw [if_neg h0]; rfl⟩
  | packVar c p o =>
    simp only [exec, execPackVar] at h ⊢
    by_cases h1 : s.maxPayload.val < p.length
    · exact ⟨_, none, .inl rfl, fun s' e => by rw [e, if_pos h1]; rfl⟩
    · by_cases h2 : o.cap < p.length + 4
      · exact ⟨_, none, .inl rfl, fun s' e => by rw [e, if_neg h1, if_pos h2]; rfl⟩
      · exact ⟨_, some (o.base, frame c p), .inr ⟨o, frame c p, rfl, by simp; omega, rfl⟩, fun s' e => by
          rw [e, if_neg h1, if_neg h2]; rfl⟩
  | checksum q => exact ⟨_, none, .inl rfl, fun s' _ => rfl⟩
  | feed => cases hi
  | rdConnected => cases hi
  | rdErrcnt => cases hi
  | rdLast => cases hi

theorem readSession_effect {sid : Byte} {w : Session → Word} {s t : State} (h : readSession sid w s = .next t) :
    ∃ r, ∀ s' : State, s'.slots[sid.toNat]? = s.slots[sid.toNat]? →
      readSession sid w s' = .next (applyEffect r (some sid.toNat) id none s') := by
  unfold readSession withSession at *
  cases hh : s.slots[sid.toNat]? with
  | none => exact ⟨_, fun s' hs => by simp only [hs]; rw [applyEffect_id]⟩
  | some sl =>
    simp only [hh] at h ⊢
    split at h
    · cases h
    · next h0 => exact ⟨_, fun s' hs => by simp only [hs]; rw [if_neg h0, applyEffect_id]⟩

/-- A session operation that answers does the same in every state with that `MAX_PAYLOAD` and that slot. -/
theorem exec_session_effect {i : Instr} {sid : Byte} {s t : State} (hi : i.session? = some sid)
    (h : exec i s = .next t) :
    ∃ r g, ∀ s' : State, s'.maxPayload = s.maxPayload → s'.slots[sid.toNat]? = s.slots[sid.toNat]? →
      exec i s' = .next (applyEffect r (some sid.toNat) g none s') := by
  cases i with
  | feed x b =>
    obtain rfl : x = sid := Option.some.inj hi
    rcases withSession_cases x s (fun sl =>
      match feedStep s.maxPayload (freeBuf x sl) b sl.session with
      | .error f => .fault f
      | .ok t => .next (respond t.2 (setSession x t.1 s))) with ⟨sl, hl, -⟩ | ⟨sl, _, _, e⟩ | ⟨hn, -⟩
    · obtain ⟨y, r, hf, -⟩ := exec_feed_next hl h
      exact ⟨r, fun sl => { sl with session := y }, fun s' hm hs =>
        exec_feed_ok (by rw [liveSlot?_congr hs]; exact hl) (by rw [hm]; exact hf)⟩
    · rw [show exec (.feed x b) s = _ from e] at h; cases h
    · refine ⟨bare .illegalRequest, id, fun s' _ hs => ?_⟩
      rw [applyEffect_id]
      simp only [exec, execFeed, withSession, hs, hn]
  | packFixed => cases hi
  | packVar => cases hi
  | checksum => cases hi
  | rdConnected x =>
    obtain rfl : x = sid := Option.some.inj hi
    obtain ⟨r, hr⟩ := readSession_effect (w := connectedWord) h
    exact ⟨r, id, fun s' _ hs => hr s' hs⟩
  | rdErrcnt x =>
    obtain rfl : x = sid := Option.some.inj hi
    obtain ⟨r, hr⟩ := readSession_effect (w := fun x => x.checksumErrorCount) h
    exact ⟨r, id, fun s' _ hs => hr s' hs⟩
  | rdLast x =>
    obtain rfl : x = sid := Option.some.inj hi
    obtain ⟨r, hr⟩ := readSession_effect (w := fun x => lengthCommandWord x.pendingLength x.pendingCommand) h
    exact ⟨r, id, fun s' _ hs => hr s' hs⟩

/-- A request that is answered does the same in every state with those parameters and with the slot, if any, of its session. -/
theorem serveRequest_effect {r : Request} {s t : State} (h : serveRequest r s = .next t) :
    ∃ a k g w, t = applyEffect a k g w s ∧
      (k = none ∨ ∃ i sid, decode s.nSessions r = .ok i ∧ i.session? = some sid ∧ k = some sid.toNat) ∧
      (w = none ∨ ∃ i, decode s.nSessions r = .ok i ∧ WritesWithin i w) ∧
      ∀ s' : State, s'.nSessions = s.nSessions → s'.maxPayload = s.maxPayload →
        (∀ j, k = some j → s'.slots[j]? = s.slots[j]?) → serveRequest r s' = .next (applyEffect a k g w s') := by
  cases hd : decode s.nSessions r with
  | error e =>
    simp only [serveRequest, hd] at h
    cases h
    exact ⟨_, none, id, none, rfl, .inl rfl, .inl rfl, fun s' hn _ _ => by simp only [serveRequest, hn, hd]; rfl⟩
  | ok i =>
    simp only [serveRequest, hd] at h
    cases hi : i.session? with
    | none =>
      obtain ⟨a, w, hw, he⟩ := exec_stateless_effect hi h
      refine ⟨a, none, id, w, ?_, .inl rfl, .inr ⟨i, rfl, hw⟩, fun s' hn hm _ => ?_⟩
      · have := he s rfl
        rw [h] at this
        exact Host.Outcome.next.inj this
      · simp only [serveRequest, hn, hd]
        exact he s' hm
    | some sid =>
      obtain ⟨a, g, he⟩ := exec_session_effect hi h
      refine ⟨a, some sid.toNat, g, none, ?_, .inr ⟨i, sid, rfl, hi, rfl⟩, .inl rfl, fun s' hn hm hk => ?_⟩
      · have := he s rfl rfl
        rw [h] at this
        exact Host.Outcome.next.inj this
      · simp only [serveRequest, hn, hd]
        exact he s' hm (hk _ rfl)

/-! Effects at different places commute. -/

theorem modify_comm (l : List Slot) {i j : Nat} (f g : Slot → Slot) (h : i ≠ j) :
    (l.modify i f).modify j g = (l.modify j g).modify i f := by
  refine List.ext_getElem? fun k => ?_
  simp only [List.getElem?_modify]
  cases l[k]? <;> simp
  split_ifs <;> simp_all

theorem memWriteBytes_comm {m : Memory} (hw : m.wf) {a b : Nat} {f g : List Byte}
    (h : a + f.length ≤ b ∨ b + g.length ≤ a) :
    memWriteBytes (memWriteBytes m a f) b g = memWriteBytes (memWriteBytes m b g) a f := by
  refine memory_ext (memWriteBytes_wf _ (memWriteBytes_wf _ hw _) _) (memWriteBytes_wf _ (memWriteBytes_wf _ hw _) _)
    fun k => ?_
  simp only [memRead_memWriteBytes]
  split_ifs <;> first | rfl | omega

end Sys2Proof.Machine
end

