-- ==== Sys2Proof/Laws/PerInstr.lean ====
section
/-! SUPPORT. A fact about every operation as syntax: its encoded word matches its row of the opcode table. -/

namespace Sys2Proof.Laws

/-- The encoded word of the operation matches the mask and pattern of its row (opcode_table.json). -/
def TableRow.Statement (i : Instr) : Prop := (encode i).word &&& i.row.mask = i.row.pattern

theorem requestWord_eq (sid b a op : Byte) :
    requestWord sid b a op = sid.zext32 <<< 24 ||| b.zext32 <<< 16 ||| a.zext32 <<< 8 ||| op.zext32 := by
  refine BitVec.eq_of_getLsbD_eq fun k hk => ?_
  simp only [requestWord, BitVec.getLsbD_append, BitVec.getLsbD_or, BitVec.getLsbD_shiftLeft, BitVec.getLsbD_setWidth]
  interval_cases k <;> simp

/-- Bit by bit, a request word meets a row when each of its fields does. -/
theorem word_meets_row (sid b a op : Byte) (m p : Word)
    (h : ∀ k, k < 32 → (((if k < 8 then op.getLsbD k else if k < 16 then a.getLsbD (k - 8)
      else if k < 24 then b.getLsbD (k - 16) else sid.getLsbD (k - 24)) && m.getLsbD k) = p.getLsbD k)) :
    requestWord sid b a op &&& m = p := by
  refine BitVec.eq_of_getLsbD_eq fun k hk => ?_
  have hk' := h k hk
  simp only [requestWord, BitVec.getLsbD_append, BitVec.getLsbD_and]
  by_cases h1 : k < 8
  · simpa [h1] using hk'
  · by_cases h2 : k < 16
    · simpa [h1, h2, show k - 8 < 8 by omega] using hk'
    · by_cases h3 : k < 24
      · simpa [h1, h2, h3, show ¬ (k - 8 < 8) by omega, Nat.sub_sub, show k - 16 < 8 by omega] using hk'
      · simpa [h1, h2, h3, show ¬ (k - 8 < 8) by omega, Nat.sub_sub, show ¬ (k - 16 < 8) by omega] using hk'

theorem TableRow.feed (sid b : Byte) : TableRow.Statement (.feed sid b) :=
  word_meets_row _ _ _ _ _ _ fun k hk => by interval_cases k <;> simp [Instr.row]

theorem TableRow.packFixed (c d : Byte) (o : OutBuf) : TableRow.Statement (.packFixed c d o) :=
  word_meets_row _ _ _ _ _ _ fun k hk => by interval_cases k <;> simp [Instr.row]

theorem TableRow.packVar (c : Byte) (p : List Byte) (o : OutBuf) : TableRow.Statement (.packVar c p o) :=
  word_meets_row _ _ _ _ _ _ fun k hk => by interval_cases k <;> simp [Instr.row]

theorem TableRow.checksum (q : List Byte) : TableRow.Statement (.checksum q) :=
  word_meets_row _ _ _ _ _ _ fun k hk => by interval_cases k <;> simp [Instr.row]

theorem TableRow.rdConnected (sid : Byte) : TableRow.Statement (.rdConnected sid) :=
  word_meets_row _ _ _ _ _ _ fun k hk => by interval_cases k <;> simp [Instr.row]

theorem TableRow.rdErrcnt (sid : Byte) : TableRow.Statement (.rdErrcnt sid) :=
  word_meets_row _ _ _ _ _ _ fun k hk => by interval_cases k <;> simp [Instr.row]

theorem TableRow.rdLast (sid : Byte) : TableRow.Statement (.rdLast sid) :=
  word_meets_row _ _ _ _ _ _ fun k hk => by interval_cases k <;> simp [Instr.row]

end Sys2Proof.Laws
end

