-- ==== Sys2Proof/Tests/Slice0.lean ====
section
/-! SUPPORT. The model's own tests (expected values from 95_test_vectors.md and the rules' own examples), and for every
obligation with hypotheses a witness that meets them. -/

namespace Sys2Proof.Tests

open Sys2Proof Sys2Proof.Machine

/-! ## Helpers -/

/-- A session, its registers in the order of 95_test_vectors.md section 4, then `BUF`. -/
def sess (st : ParserState) (len cmd wi : Byte) (count : Word) (conn : Bool) (buf : Memory) : Session :=
  ⟨st, len, cmd, wi, count, conn, buf⟩

/-- A block with the given `MAX_PAYLOAD` and sessions, each reset once, with nothing pending. -/
def block (mp : Fin 256) (xs : List Session) : State := ⟨mp, xs.map fun x => ⟨1, x⟩, [], [], []⟩

/-- One session in this hardware's block. -/
def one (x : Session) : State := block 255 [x]

/-- The state with host actions pending. -/
def pending (as : List HostAction) (s : State) : State := { s with inbox := as }

/-- The state of a result, if it is a next state. -/
def state? : Result → Option State
  | .next s => some s
  | .fault _ => none
  | .refused _ => none

/-- The newest response of a result. -/
def reply? (r : Result) : Option Response := (state? r).bind fun s => s.responses.getLast?

/-- The registers of session 0 of a result. -/
def session0? (r : Result) : Option Session := (state? r).bind fun s => (s.slots[0]?).map Slot.session

/-- After vector S2. -/
def afterS2 : Session := sess .waitHeader 3 0x01 3 0 true [(0, 0x10), (1, 0x20), (2, 0x30)]

/-! ## Well-formedness: a session number the block does not have is refused, the last one is accepted -/

theorem test_wf_feed : (Instr.feed 2 0xAF).wellFormed 2 = false ∧ (Instr.feed 1 0xAF).wellFormed 2 = true := by decide
theorem test_wf_rdConnected : (Instr.rdConnected 1).wellFormed 1 = false ∧ (Instr.rdConnected 0).wellFormed 1 = true := by
  decide
theorem test_wf_rdErrcnt : (Instr.rdErrcnt 1).wellFormed 1 = false ∧ (Instr.rdErrcnt 0).wellFormed 1 = true := by decide
theorem test_wf_rdLast : (Instr.rdLast 255).wellFormed 255 = false ∧ (Instr.rdLast 254).wellFormed 255 = true := by decide

/-! ## Decoding: words written out bit by bit from 30_encoding.md R58 to R60, as `sid`, `b`, `a`, `op` -/

/-- `FEED 0xAF, sid=1` (program P4, step 2). -/
theorem test_decode_feed :
    decode 2 ⟨0b00000001000000001010111100000001, [], ⟨0, 0⟩⟩ = .ok (.feed 0x01 0xAF) := rfl
/-- `PACK_FIXED 0x01, 0x2A`. -/
theorem test_decode_packFixed :
    decode 1 ⟨0b00000000001010100000000100000010, [], ⟨8, 5⟩⟩ = .ok (.packFixed 0x01 0x2A ⟨8, 5⟩) := rfl
/-- `PACK_VAR 0x42, [0x01, 0x02], cap=100`. -/
theorem test_decode_packVar :
    decode 1 ⟨0b00000000000000000100001000000011, [0x01, 0x02], ⟨8, 100⟩⟩ = .ok (.packVar 0x42 [0x01, 0x02] ⟨8, 100⟩) := rfl
/-- `CHECKSUM [0xFF, 0x0F]`. -/
theorem test_decode_checksum :
    decode 1 ⟨0b00000000000000000000000000000100, [0xFF, 0x0F], ⟨0, 0⟩⟩ = .ok (.checksum [0xFF, 0x0F]) := rfl
theorem test_decode_rdConnected :
    decode 1 ⟨0b00000000000000000000000000000101, [], ⟨0, 0⟩⟩ = .ok (.rdConnected 0) := rfl
theorem test_decode_rdErrcnt :
    decode 1 ⟨0b00000000000000000000000000000110, [], ⟨0, 0⟩⟩ = .ok (.rdErrcnt 0) := rfl
/-- `RD_LAST sid=1` (program P4, step 10). -/
theorem test_decode_rdLast :
    decode 2 ⟨0b00000001000000000000000000000111, [], ⟨0, 0⟩⟩ = .ok (.rdLast 1) := rfl
/-- The reserved requests of 95_test_vectors.md: F20, F21, and those of sections 2, 3 and 5. -/
theorem test_decode_reserved :
    decodeTableWord 32 0x0100AF01 = none ∧ decodeTableWord 32 0x0001AF01 = none ∧ decodeTableWord 32 0x00000104 = none ∧
    decodeTableWord 32 0x012A0102 = none ∧ decodeTableWord 32 0x00010103 = none ∧ decodeTableWord 32 0x00000105 = none ∧
    decodeTableWord 32 0x00000000 = none ∧ decodeTableWord 32 0x00000008 = none := by decide
/-- A word the host places is served by the next step, first after reset (`PACK_FIXED 0x00, 0x00`). -/
theorem test_step_serves_placed_word :
    reply? (step (State.reset.withFetchWord 32 0x00000002)) = some ⟨.ok, 5, [0xAF, 0x01, 0x00, 0x00, 0xAE]⟩ := by decide

/-- The codes of the parser states (10_state.md R17). -/
theorem test_state_codes :
    [ParserState.waitHeader, .readLength, .readCommand, .readPayload, .readChecksum].map ParserState.code = [0, 1, 2, 3, 4] := by
  decide

/-! ## Single operations -/

/-- Vector F16: a match with a payload. -/
theorem test_feed_match :
    reply? (exec (.feed 0 0xAD) (one (sess .readChecksum 3 0x01 3 7 false [(0, 0x10), (1, 0x20), (2, 0x30)]))) =
      some ⟨.frameReady, 0x00000301, [0x10, 0x20, 0x30]⟩ := by decide
/-- Vector F18: a mismatch, and the counter wraps. -/
theorem test_feed_mismatch_wraps :
    session0? (exec (.feed 0 0x00) (one (sess .readChecksum 0 0x05 0 0xFFFFFFFF true []))) =
      some (sess .waitHeader 0 0x05 0 0 false []) := by decide
/-- 41_encoder.md R91, the example: the bytes reach OUT and the response. -/
theorem test_packFixed_frame :
    (state? (exec (.packFixed 0x01 0x2A ⟨2, 5⟩) (one Session.reset))).map State.out =
      some [(2, 0xAF), (3, 0x01), (4, 0x01), (5, 0x2A), (6, 0x85)] := by decide
/-- 95_test_vectors.md section 3, `PACK_FIXED 0x02, 0xFF`. -/
theorem test_packFixed_reply :
    reply? (exec (.packFixed 0x02 0xFF ⟨0, 5⟩) (one Session.reset)) = some ⟨.ok, 5, [0xAF, 0x01, 0x02, 0xFF, 0x53]⟩ := by
  decide
/-- 41_encoder.md R94, the example. -/
theorem test_packVar_frame :
    reply? (exec (.packVar 0x01 [0x10, 0x20, 0x30] ⟨0, 7⟩) (one Session.reset)) =
      some ⟨.ok, 7, [0xAF, 0x03, 0x01, 0x10, 0x20, 0x30, 0xAD]⟩ := by decide
/-- 95_test_vectors.md section 3: `cap=6` is one byte short. -/
theorem test_packVar_capacity :
    reply? (exec (.packVar 0x01 [0x01, 0x02, 0x03] ⟨0, 6⟩) (one Session.reset)) = some ⟨.capacityViolation, 0, []⟩ := by
  decide
/-- 40_checksum.md R82, the example. -/
theorem test_checksum :
    reply? (exec (.checksum [0xAF, 0x03, 0x01, 0x10, 0x20, 0x30]) (one Session.reset)) = some ⟨.ok, 0x000000AD, []⟩ := by
  decide
/-- 95_test_vectors.md section 5, after S2. -/
theorem test_rdConnected : reply? (exec (.rdConnected 0) (one afterS2)) = some ⟨.ok, 0x00000001, []⟩ := by decide
/-- 95_test_vectors.md section 5, after S5, whose end state has counted one error. -/
theorem test_rdErrcnt :
    reply? (exec (.rdErrcnt 0) (one { afterS2 with checksumErrorCount := 1 })) = some ⟨.ok, 0x00000001, []⟩ := by decide
/-- 95_test_vectors.md section 5, after S2. -/
theorem test_rdLast : reply? (exec (.rdLast 0) (one afterS2)) = some ⟨.ok, 0x00000301, []⟩ := by decide

/-! ## Witnesses: concrete values that meet the hypotheses of each obligation, for each of its clauses -/

/-- A block that satisfies the invariant, if its sessions have an empty `BUF` and promise nothing of it. -/
theorem inv_block (mp : Fin 256) (x : Session) (h₁ : x.pendingLength.toNat ≤ mp.val) (h₂ : x.writeIndex.toNat ≤ mp.val)
    (h₃ : StatePromise x) (h₄ : x.buf = []) : StateInv (block mp [x]) := by
  refine ⟨List.Pairwise.nil, ?_, ?_⟩ <;> intro sl hsl <;> obtain rfl : sl = ⟨1, x⟩ := by simpa [block] using hsl
  · simp [h₄]
  · exact fun _ => ⟨h₁, h₂, h₃, fun i _ => by simp [h₄, memRead]⟩

theorem witness_DecodeOfEncodeIsIdentity :
    (Instr.feed 1 0xAF).wellFormed 2 = true ∧ (Instr.packFixed 0 0 ⟨0, 5⟩).wellFormed 0 = true ∧
    (Instr.packVar 0 [] ⟨0, 4⟩).wellFormed 0 = true ∧ (Instr.checksum []).wellFormed 0 = true ∧
    (Instr.rdConnected 0).wellFormed 1 = true ∧ (Instr.rdErrcnt 0).wellFormed 1 = true ∧
    (Instr.rdLast 254).wellFormed 255 = true := by decide

theorem witness_DecodedWordIsTheEncodedWord :
    decode 2 ⟨0x0100AF01, [], ⟨0, 0⟩⟩ = .ok (.feed 0x01 0xAF) := rfl

/-- The guards of each clause, each with the last session number or the only fields it allows, and a word for the last clause. -/
theorem witness_DecodeFollowsTheCaseTable :
    (∀ w ∈ [(0x0100FF01 : Word), 0x01000005, 0x01000006, 0x01000007],
      w.extractLsb' 16 8 = 0 ∧ (w.extractLsb' 24 8).toNat < 2) ∧
    (0x00FFFF02 : Word).extractLsb' 24 8 = 0 ∧
    ((0x0000FF03 : Word).extractLsb' 16 8 = 0 ∧ (0x0000FF03 : Word).extractLsb' 24 8 = 0) ∧
    ((0x00000004 : Word).extractLsb' 8 8 = 0 ∧ (0x00000004 : Word).extractLsb' 16 8 = 0) ∧
    (0x02000001 : Word).extractLsb' 0 8 = 0x01 ∧ ¬((0x02000001 : Word).extractLsb' 24 8).toNat < 2 := by
  simp

theorem witness_OpcodeRowsAreDisjoint :
    (0x0000AF01 : Word) &&& (Instr.feed 0 0).row.mask = (Instr.feed 0 0).row.pattern ∧
    decode 1 ⟨0x0000AF01, [], ⟨0, 0⟩⟩ = .ok (.feed 0 0xAF) := ⟨by decide, rfl⟩

/-- A request for the tests: `FEED b` to session 0. -/
def feedRequest (b : Byte) : Request := asmFeed b 0

theorem witness_StepRunsTheDecodedOperation :
    (pending [.request (feedRequest 0xAF)] (one Session.reset)).inbox = .request (feedRequest 0xAF) :: [] ∧
    decode (one Session.reset).nSessions (feedRequest 0xAF) = .ok (.feed 0 0xAF) := ⟨rfl, rfl⟩

/-- A word of each kind of reserved request. -/
theorem witness_ReservedRequestIsAnsweredIllegal :
    (∀ w ∈ [(0x00000000 : Word), 0x00000008, 0x000000FF, 0x00010001, 0x01000001, 0x01000002, 0x00010003, 0x01000003,
      0x00000104, 0x00010004, 0x01000004, 0x00000105, 0x00010006, 0x01000007], Reserved 1 w) ∧
    (pending [.request ⟨0x00000008, [], ⟨0, 0⟩⟩] (one Session.reset)).inbox = .request ⟨0x00000008, [], ⟨0, 0⟩⟩ :: [] := by
  refine ⟨?_, rfl⟩
  simp [Reserved]

theorem witness_IdleBlockKeepsItsState : State.reset.inbox = [] := rfl

theorem witness_QueuedRequestsRunInOrder :
    (pending [.request (feedRequest 0xAF), .request (feedRequest 0x00), .reset 0] (one Session.reset)).inbox =
      [feedRequest 0xAF, feedRequest 0x00].map HostAction.request ++ [.reset 0] ∧
    [feedRequest 0xAF, feedRequest 0x00].map (decode 1) = [Instr.feed 0 0xAF, .feed 0 0x00].map Except.ok := ⟨rfl, rfl⟩

/-- Vector section 6: session 1 of two sessions, when session 0 is reset. -/
def resetting : State := pending [.reset 0] (block 255 [sess .readPayload 175 0x01 3 9 true [], afterS2])

theorem witness_HostResetSetsEveryRegister :
    (resetting.inbox = .reset 0 :: [] ∧ 0 < resetting.nSessions) ∧ ∃ sl, sl ∈ State.reset.slots :=
  ⟨by decide, ⟨1, Session.reset⟩, by decide⟩

theorem witness_OnlyResetResetsASession :
    (resetting.inbox = .reset 0 :: [] ∧ (∃ t, step resetting = .next t) ∧ (1 : Nat) ≠ 0) ∧
    (∃ t, step (pending [.request (feedRequest 0x00)] (one (sess .readChecksum 0 0x05 0 0 false []))) = .next t) ∧
    (one (sess .readChecksum 0 0x05 0 0 false [])).slots[0]? = some ⟨1, sess .readChecksum 0 0x05 0 0 false []⟩ :=
  ⟨⟨rfl, ⟨_, rfl⟩, by decide⟩, ⟨_, rfl⟩, rfl⟩

/-- The frame of `PACK_FIXED 0x01, 0x2A`. -/
theorem witness_ResetValuesAndUnwrittenBuf :
    (∃ sl, sl ∈ State.reset.slots) ∧
    ∃ t u, liveSlot? 0 (one Session.reset) = some ⟨1, Session.reset⟩ ∧ Session.reset.state = .waitHeader ∧
      runFeeds 0 [0xAF, 0x01, 0x01, 0x2A] (one Session.reset) = .next t ∧ exec (.feed 0 0x85) t = .next u ∧
      u.responses = t.responses ++ [⟨.frameReady, 0x00000101, [0x2A]⟩] :=
  ⟨⟨⟨1, Session.reset⟩, by decide⟩, _, _, rfl, rfl, rfl, rfl, rfl⟩

theorem witness_XorReduceIsTheFold : [(0x01 : Byte), 0x02].Perm [0x02, 0x01] := by decide

theorem witness_ChecksumOperation :
    ((0x00000104 : Word).extractLsb' 0 8 = 0x04 ∧ (0x00000104 : Word) ≠ 0x00000004) ∧
    [(0x05 : Byte), 0x03, 0x05].count 0x05 % 2 = 0 ∧ [(0x01 : Byte), 0x02].Perm [0x02, 0x01] := by decide

theorem witness_ChecksumLaws :
    [(0x01 : Byte), 0x02].Perm [0x02, 0x01] ∧ ([(0x10 : Byte)][0]? = some 0x10 ∧ (0x01 : Byte) ≠ 0) ∧
    ((0 : Nat) ≠ 1 ∧ [(0x10 : Byte), 0x20][0]? = some 0x10 ∧ [(0x10 : Byte), 0x20][1]? = some 0x20) := by decide

theorem witness_RunningXorMatchesRecompute : SessionInv 255 Session.reset ∧ Session.reset.state = .waitHeader :=
  ⟨⟨by decide, by decide, trivial, fun _ _ => rfl⟩, rfl⟩

theorem witness_PackFixedOperation :
    5 ≤ (⟨0, 5⟩ : OutBuf).cap ∧ (0x01 : Byte) ≠ 0 ∧ 1 ≤ (block 1 [Session.reset]).maxPayload.val := by decide

theorem witness_PackFixedIntoSmallBufferIsRefused : (⟨0, 4⟩ : OutBuf).cap < 5 := by decide

/-- The boundary: 255 bytes fit in `cap = 259`, not in 258; 256 bytes are too many. -/
theorem witness_PackVarOperation :
    ((List.replicate 255 (0 : Byte)).length ≤ (one Session.reset).maxPayload.val ∧
      (List.replicate 255 (0 : Byte)).length + 4 ≤ (⟨0, 259⟩ : OutBuf).cap) ∧
    (one Session.reset).maxPayload.val < (List.replicate 256 (0 : Byte)).length ∧
    (⟨0, 258⟩ : OutBuf).cap < (List.replicate 255 (0 : Byte)).length + 4 ∧
    ((0x01 : Byte) ≠ 0 ∨ (0x00 : Byte) ≠ 0) ∧ (List.replicate 255 (0 : Byte)).length = 255 := by
  simp only [List.length_replicate]; decide

/-- A pack that succeeds, and one that fails. -/
theorem witness_PackWritesExactlyItsFrame :
    (IsPack (.packFixed 0x01 0x2A ⟨2, 5⟩) ⟨2, 5⟩ ∧
      ∃ t r, exec (.packFixed 0x01 0x2A ⟨2, 5⟩) (one Session.reset) = .next t ∧ t.responses = [r] ∧ r.kind = .ok) ∧
    (IsPack (.packVar 0x01 [] ⟨2, 3⟩) ⟨2, 3⟩ ∧
      ∃ t r, exec (.packVar 0x01 [] ⟨2, 3⟩) (one Session.reset) = .next t ∧ t.responses = [r] ∧ r.kind ≠ .ok) :=
  ⟨⟨.inl ⟨_, _, rfl⟩, _, _, rfl, rfl, rfl⟩, .inr ⟨_, _, rfl⟩, _, _, rfl, rfl, by decide⟩

/-- The frame of `PACK_FIXED 0x01, 0x2A`, which `PACK_VAR 0x01, [0x2A]` also answers. -/
theorem emits_2A (s : State) : EncoderEmits s 0x01 [0x2A] [0xAF, 0x01, 0x01, 0x2A, 0x85] :=
  .inr ⟨0x2A, ⟨0, 5⟩, _, _, rfl, rfl, rfl⟩

theorem witness_EncoderFrameLayout :
    EncoderEmits (one Session.reset) 0x01 [0x2A] [0xAF, 0x01, 0x01, 0x2A, 0x85] ∧
    EncoderEmits (one Session.reset) 0x01 [0x10, 0x20, 0x30] [0xAF, 0x03, 0x01, 0x10, 0x20, 0x30, 0xAD] :=
  ⟨emits_2A _, .inl ⟨⟨0, 7⟩, _, _, rfl, rfl⟩⟩

theorem witness_StatelessAnswersDependOnOperandsOnly :
    (Instr.packVar 0x01 [] ⟨0, 3⟩).session? = none ∧ (one Session.reset).maxPayload = (one afterS2).maxPayload ∧
    ∃ t, exec (.packVar 0x01 [] ⟨0, 3⟩) (one Session.reset) = .next t := ⟨rfl, rfl, _, rfl⟩

/-- Any session of a block of one is live. -/
theorem live_block (mp : Fin 256) (x : Session) : liveSlot? 0 (block mp [x]) = some ⟨1, x⟩ := rfl

theorem witness_HeaderByteStartsAFrame :
    liveSlot? 0 (one afterS2) = some ⟨1, afterS2⟩ ∧ afterS2.state = .waitHeader := ⟨rfl, rfl⟩

theorem witness_OtherByteIsDiscarded :
    liveSlot? 0 (one afterS2) = some ⟨1, afterS2⟩ ∧ afterS2.state = .waitHeader ∧ (0xAE : Byte) ≠ 0xAF :=
  ⟨rfl, rfl, by decide⟩

/-- Vectors V1 and V3: `MAX_PAYLOAD = 16`, and the smallest byte above the bound. -/
theorem witness_LengthAboveBoundAborts :
    (liveSlot? 0 (block 16 [sess .readLength 0 0x00 0 0 false []]) = some ⟨1, sess .readLength 0 0x00 0 0 false []⟩ ∧
      (16 : Fin 256).val < (0x11 : Byte).toNat) ∧ (one Session.reset).maxPayload.val = 255 := ⟨⟨rfl, by decide⟩, rfl⟩

theorem witness_LengthWithinBoundIsCaptured :
    liveSlot? 0 (block 16 [sess .readLength 0 0x00 0 0 false []]) = some ⟨1, sess .readLength 0 0x00 0 0 false []⟩ ∧
    (0x10 : Byte).toNat ≤ (16 : Fin 256).val := ⟨rfl, by decide⟩

theorem witness_CommandByteIsCaptured :
    (liveSlot? 0 (one (sess .readCommand 0 0x00 0 0 false [])) = some ⟨1, sess .readCommand 0 0x00 0 0 false []⟩) ∧
    liveSlot? 0 (one (sess .readCommand 3 0x00 0 0 false [])) = some ⟨1, sess .readCommand 3 0x00 0 0 false []⟩ ∧
    (3 : Byte) ≠ 0 := ⟨rfl, rfl, by decide⟩

/-- The last index of the buffer, and an invariant session. -/
theorem witness_PayloadByteIsStored :
    (liveSlot? 0 (one (sess .readPayload 255 0x01 254 0 false [])) = some ⟨1, sess .readPayload 255 0x01 254 0 false []⟩ ∧
      (254 : Byte).toNat < (one Session.reset).maxPayload.val) ∧
    SessionInv 255 (sess .readPayload 3 0x01 0 0 false []) :=
  ⟨⟨rfl, by decide⟩, by decide, by decide, ⟨by decide, fun i h => absurd h (Nat.not_lt_zero i)⟩, fun _ _ => rfl⟩

/-- A session at the checksum byte of the frame of S2, and at that of an empty frame. -/
def atChecksum : Session := sess .readChecksum 3 0x01 3 7 false [(0, 0x10), (1, 0x20), (2, 0x30)]

theorem witness_ChecksumByteIsComparedWithRecomputed :
    (liveSlot? 0 (one atChecksum) = some ⟨1, atChecksum⟩ ∧ atChecksum.pendingLength.toNat ≤ (one atChecksum).maxPayload.val) ∧
    (∀ k, k < 3 → memRead atChecksum.buf k = [(0x10 : Byte), 0x20, 0x30][k]?) ∧
    (0xAD : Byte) = xorReduce ([0xAF, 3, 0x01] ++ [0x10, 0x20, 0x30]) ∧
    (0x52 : Byte) ≠ xorReduce ([0xAF, 3, 0x01] ++ [0x10, 0x20, 0x30]) := ⟨⟨rfl, by decide⟩, by decide, by decide, by decide⟩

theorem witness_ChecksumMatchEmitsTheFrame :
    liveSlot? 0 (one atChecksum) = some ⟨1, atChecksum⟩ ∧ atChecksum.state = .readChecksum ∧
    atChecksum.pendingLength.toNat ≤ (one atChecksum).maxPayload.val := ⟨rfl, rfl, by decide⟩

theorem witness_ChecksumMismatchIsCounted :
    liveSlot? 0 (one atChecksum) = some ⟨1, atChecksum⟩ ∧ atChecksum.state = .readChecksum ∧
    atChecksum.pendingLength.toNat ≤ (one atChecksum).maxPayload.val ∧
    (0x52 : Byte) ≠ xorReduce ([0xAF, 3, 0x01] ++ pendingPayload 0 ⟨1, atChecksum⟩) := ⟨rfl, rfl, by decide, by decide⟩

/-- A `FEED` that writes each register. -/
theorem witness_FeedWritesOnlyTheRegistersOfItsState :
    (∃ t, exec (.feed 0 0x05) (one (sess .readLength 3 0x01 7 0 true [])) = .next t ∧
      session0? (.next t) = some (sess .readCommand 5 0x01 0 0 true [])) ∧
    (∃ t, exec (.feed 0 0x09) (one (sess .readCommand 5 0x01 0 0 true [])) = .next t ∧
      session0? (.next t) = some (sess .readPayload 5 0x09 0 0 true [])) ∧
    (∃ t, exec (.feed 0 0xAF) (one afterS2) = .next t ∧
      session0? (.next t) = some { afterS2 with state := .readLength, writeIndex := 0 }) ∧
    (∃ t, exec (.feed 0 0x10) (one (sess .readPayload 3 0x01 0 0 false [])) = .next t ∧
      session0? (.next t) = some (sess .readPayload 3 0x01 1 0 false [(0, 0x10)])) ∧
    ∃ t, exec (.feed 0 0xAB) (one (sess .readChecksum 0 0x05 0 0 true [])) = .next t ∧
      session0? (.next t) = some (sess .waitHeader 0 0x05 0 1 false []) :=
  ⟨⟨_, rfl, rfl⟩, ⟨_, rfl, rfl⟩, ⟨_, rfl, rfl⟩, ⟨_, rfl, rfl⟩, _, rfl, rfl⟩

theorem witness_FeedTouchesOnlyItsSession :
    (∃ t, exec (.feed 0 0xAF) (block 255 [Session.reset, afterS2]) = .next t) ∧ (1 : Nat) ≠ (0 : Byte).toNat :=
  ⟨⟨_, rfl⟩, by decide⟩

theorem witness_OtherOperationsLeaveTheSessions :
    ((∀ sid b, Instr.packVar 0x01 [] ⟨0, 4⟩ ≠ .feed sid b) ∧
      ∃ t, exec (.packVar 0x01 [] ⟨0, 4⟩) (one afterS2) = .next t) ∧
    (∀ sid b, Instr.rdLast 0 ≠ .feed sid b) ∧ (∃ t, exec (.rdLast 0) (one afterS2) = .next t) ∧
    ∀ o, ¬ IsPack (.rdLast 0) o :=
  ⟨⟨by simp, _, rfl⟩, by simp, ⟨_, rfl⟩, by simp [IsPack]⟩

/-- `MAX_PAYLOAD = 1`, from `ReadLength`: the four bytes of the worst case. -/
theorem witness_ParserReturnsToWaitHeader :
    StateInv (block 1 [sess .readLength 0 0x00 0 0 false []]) ∧
    liveSlot? 0 (block 1 [sess .readLength 0 0x00 0 0 false []]) = some ⟨1, sess .readLength 0 0x00 0 0 false []⟩ ∧
    [(0x01 : Byte), 0x00, 0x00, 0x00].length = (1 : Fin 256).val + 3 ∧
    ([(0x01 : Byte), 0x00, 0x00][0]? = some (BitVec.ofNat 8 (1 : Fin 256).val) ∧
      ∃ t, runFeeds 0 [0x01, 0x00, 0x00] (block 1 [sess .readLength 0 0x00 0 0 false []]) = .next t) :=
  ⟨inv_block _ _ (by decide) (by decide) rfl rfl, rfl, rfl, rfl, _, rfl⟩

theorem witness_AnyBytesAfterALengthAreOneFrame :
    (∃ t r, exec (.feed 0 0xAD) (one atChecksum) = .next t ∧ t.responses = [r] ∧ r.kind ≠ .ok) ∧
    (liveSlot? 0 (block 1 [Session.reset]) = some ⟨1, Session.reset⟩ ∧ (0x01 : Byte).toNat ≤ (1 : Fin 256).val ∧
      [(0x2A : Byte)].length = (0x01 : Byte).toNat) ∧
    (0x85 : Byte) = xorReduce ([0xAF, 0x01, 0x01] ++ [0x2A]) ∧ (0x00 : Byte) ≠ xorReduce ([0xAF, 0x01, 0x01] ++ [0x2A]) :=
  ⟨⟨_, ⟨.frameReady, 0x00000301, [0x10, 0x20, 0x30]⟩, rfl, rfl, by decide⟩, ⟨rfl, by decide, rfl⟩, by decide, by decide⟩

/-- Vector S4. -/
theorem witness_NoiseNeverEmitsAnEvent :
    (liveSlot? 0 (one Session.reset) = some ⟨1, Session.reset⟩ ∧ (0xAF : Byte) ∉ [(0x00 : Byte), 0x13, 0xFF, 0x55]) ∧
    liveSlot? 0 (one atChecksum) = some ⟨1, atChecksum⟩ ∧ atChecksum.pendingLength.toNat ≤ (one atChecksum).maxPayload.val :=
  ⟨⟨rfl, by decide⟩, rfl, by decide⟩

theorem witness_EncodedFrameDecodes :
    EncoderEmits (one Session.reset) 0x01 [0x2A] [0xAF, 0x01, 0x01, 0x2A, 0x85] ∧
    [(0x2A : Byte)].length ≤ (one Session.reset).maxPayload.val ∧
    liveSlot? 0 (one Session.reset) = some ⟨1, Session.reset⟩ ∧ Session.reset.state = .waitHeader :=
  ⟨emits_2A _, by decide, rfl, rfl⟩

/-- Vector S5, with the flipped checksum of the frame above. -/
theorem witness_CorruptedChecksumIsReportedOnce :
    EncoderEmits (one Session.reset) 0x01 [0x2A] [0xAF, 0x01, 0x01, 0x2A, 0x85] ∧
    [(0x2A : Byte)].length ≤ (one Session.reset).maxPayload.val ∧
    some (0x7A : Byte) ≠ [(0xAF : Byte), 0x01, 0x01, 0x2A, 0x85].getLast? ∧
    liveSlot? 0 (one Session.reset) = some ⟨1, Session.reset⟩ ∧ Session.reset.state = .waitHeader :=
  ⟨emits_2A _, by decide, by decide, rfl, rfl⟩

theorem xorReduce_zeros (n : Nat) : xorReduce (List.replicate n 0x00) = 0x00 := by
  induction n with
  | zero => rfl
  | succ n ih => rw [List.replicate_succ, xorReduce_cons, ih]; rfl

/-- The bytes after the swallowed header, cut after `n + 5`. -/
theorem swallowed_bytes (n : Nat) (k : Byte) :
    ([(0xAF : Byte), 0x01, 0x01, 0x2A, 0x85].tail ++ (List.replicate n 0x00 ++ [k])).take (n + 5) =
      0x01 :: ([0x01, 0x2A, 0x85] ++ List.replicate n 0x00) ++ [k] := by
  rw [List.take_of_length_le (by simp)]
  rfl

/-- Program P3: 172 zero bytes and the checksum byte follow the swallowed frame; both outcomes of the checksum byte. -/
theorem witness_FalseHeaderSwallowsTheRealFrame :
    EncoderEmits (one Session.reset) 0x01 [0x2A] [0xAF, 0x01, 0x01, 0x2A, 0x85] ∧
    175 ≤ (one Session.reset).maxPayload.val ∧ liveSlot? 0 (one Session.reset) = some ⟨1, Session.reset⟩ ∧
    ([0x01, 0x2A, 0x85] ++ List.replicate 172 (0x00 : Byte)).length = 175 ∧
    (∀ k ∈ [(0x00 : Byte), 0xAF],
      ([(0xAF : Byte), 0x01, 0x01, 0x2A, 0x85].tail ++ (List.replicate 172 0x00 ++ [k])).take 177 =
        0x01 :: ([0x01, 0x2A, 0x85] ++ List.replicate 172 0x00) ++ [k]) ∧
    (0xAF : Byte) = xorReduce ([0xAF, 0xAF, 0x01] ++ ([0x01, 0x2A, 0x85] ++ List.replicate 172 0x00)) :=
  ⟨emits_2A _, by decide, rfl, by rw [List.length_append, List.length_replicate]; rfl,
    fun k _ => swallowed_bytes 172 k, by
    simp only [xorReduce_append_list, xorReduce_zeros]; decide⟩

theorem witness_OutputDependsOnStreamAndSession :
    (one Session.reset).maxPayload = (block 255 [Session.reset, afterS2]).maxPayload ∧
    (one Session.reset).slots[(0 : Byte).toNat]? = (block 255 [Session.reset, afterS2]).slots[(0 : Byte).toNat]? ∧
    ∃ t, runFeeds 0 [0xAF, 0x01] (one Session.reset) = .next t := ⟨rfl, rfl, _, rfl⟩

theorem witness_ConnectedAndCounterFollowTheEvents :
    liveSlot? 0 (one Session.reset) = some ⟨1, Session.reset⟩ ∧
    ∃ t, runFeeds 0 [0xAF, 0x00, 0x05, 0xAB] (one Session.reset) = .next t := ⟨rfl, _, rfl⟩

theorem witness_AccessorsAnswerTheirRegisters : liveSlot? 0 (one afterS2) = some ⟨1, afterS2⟩ := rfl

theorem witness_AccessorsAreReadOnly :
    (IsAccessor (.rdLast 0) 0 ∧ liveSlot? 0 (one afterS2) = some ⟨1, afterS2⟩) ∧
    (∃ t r, step (pending [.request (asmRdLast 0)] (one afterS2)) = .next t ∧ t.responses = [r]) ∧
    (∀ j ∈ [Instr.packFixed 0x01 0x2A ⟨0, 5⟩], ∀ b, j ≠ .feed 0 b) ∧
    ∃ t r u v r', exec (.rdLast 0) (one afterS2) = .next t ∧ t.responses = [r] ∧
      runInstrs [.packFixed 0x01 0x2A ⟨0, 5⟩] t = .next u ∧ exec (.rdLast 0) u = .next v ∧
      v.responses = u.responses ++ [r'] :=
  ⟨⟨.inr (.inr rfl), rfl⟩, ⟨_, _, rfl, rfl⟩, by simp, _, _, _, _, ⟨.ok, 0x00000301, []⟩, rfl, rfl, rfl, rfl, rfl⟩

/-- From reset, and from after S2 at each place in the next frame (95_test_vectors.md section 5); a rejected length needs a
smaller `MAX_PAYLOAD`. -/
theorem witness_RdLastByTimeOfReading :
    (∃ t sl', liveSlot? 0 (one Session.reset) = some ⟨1, Session.reset⟩ ∧ runFeeds 0 [0x00, 0xAF] (one Session.reset) = .next t ∧
      liveSlot? 0 t = some sl' ∧ sl'.session.state = .readLength ∧ t.responses = [] ++ [noEvent, noEvent]) ∧
    (liveSlot? 0 (one afterS2) = some ⟨1, afterS2⟩ ∧ afterS2.state = .waitHeader) ∧
    (∃ t, runFeeds 0 [0xAF] (one afterS2) = .next t) ∧
    ((block 16 [afterS2]).maxPayload.val < (0x11 : Byte).toNat ∧ ∃ t, runFeeds 0 [0xAF, 0x11] (block 16 [afterS2]) = .next t) ∧
    ((0x05 : Byte).toNat ≤ (one afterS2).maxPayload.val ∧ ∃ t, runFeeds 0 [0xAF, 0x05] (one afterS2) = .next t) ∧
    ([(0x2A : Byte)].length ≤ (0x01 : Byte).toNat ∧
      ∃ t, runFeeds 0 ([0xAF, 0x01, 0x09] ++ [0x2A]) (one afterS2) = .next t) ∧
    ((0xAF : Byte) ∉ [(0x13 : Byte)] ∧
      ∃ t, runFeeds 0 ([0xAF, 0x01, 0x01] ++ [0x2A] ++ [0x85] ++ [0x13]) (one afterS2) = .next t) :=
  ⟨⟨_, _, rfl, rfl, rfl, rfl, rfl⟩, ⟨rfl, rfl⟩, ⟨_, rfl⟩, ⟨by decide, _, rfl⟩, ⟨by decide, _, rfl⟩, ⟨by decide, _, rfl⟩, by decide, _, rfl⟩

/-- One request that is answered with each kind. -/
theorem witness_EveryRequestGetsOneResponse :
    reply? (step (pending [.request (asmRdLast 0)] (one afterS2))) = some ⟨.ok, 0x00000301, []⟩ ∧
    reply? (step (pending [.request (feedRequest 0xAD)] (one atChecksum))) =
      some ⟨.frameReady, 0x00000301, [0x10, 0x20, 0x30]⟩ ∧
    reply? (step (pending [.request (feedRequest 0x52)] (one atChecksum))) = some ⟨.checksumError, 0, []⟩ ∧
    reply? (step (pending [.request (asmPackVar 0x01 [0x00, 0x00] 2 0)] (block 1 [Session.reset]))) =
      some ⟨.sizeExceeded, 0, []⟩ ∧
    reply? (step (pending [.request (asmPackVar 0x01 [] 3 0)] (one Session.reset))) = some ⟨.capacityViolation, 0, []⟩ ∧
    reply? (step (pending [.request ⟨0x00000008, [], ⟨0, 0⟩⟩] (one Session.reset))) = some ⟨.illegalRequest, 0, []⟩ := by
  decide

theorem witness_OneConditionPerOperation :
    ((pending [.request ⟨0x00000008, [], ⟨0, 0⟩⟩] (one Session.reset)).inbox = .request ⟨0x00000008, [], ⟨0, 0⟩⟩ :: [] ∧
      decode 1 ⟨0x00000008, [], ⟨0, 0⟩⟩ = .error .reservedOp) ∧
    ((block 1 [Session.reset]).maxPayload.val < [(0x00 : Byte), 0x00].length ∧
      (⟨0, 5⟩ : OutBuf).cap < [(0x00 : Byte), 0x00].length + 4) ∧
    (∃ t, exec (.feed 0 0x11) (block 16 [sess .readLength 0 0x00 0 0 false []]) = .next t) ∧
    (16 : Fin 256).val < (0x11 : Byte).toNat :=
  ⟨⟨rfl, rfl⟩, by decide, ⟨_, rfl⟩, by decide⟩

theorem witness_SessionNotResetIsRefused :
    ((Instr.rdLast 0).session? = some 0 ∧
      (⟨255, [⟨0, Session.reset⟩], [], [], []⟩ : State).slots[(0 : Byte).toNat]? = some ⟨0, Session.reset⟩) ∧
    (∃ sl, sl ∈ State.reset.slots) ∧ (Instr.checksum []).session? = none :=
  ⟨⟨rfl, rfl⟩, ⟨⟨1, Session.reset⟩, by decide⟩, rfl⟩

/-- Two `FEED`s to one session; two packs whose buffers share the one address 4. -/
theorem witness_OverlappingConflictsAreRefused :
    ([feedRequest 0xAF, asmRdLast 0].Sublist [feedRequest 0xAF, asmRdLast 0] ∧
      decode 1 (feedRequest 0xAF) = .ok (.feed 0 0xAF) ∧ decode 1 (asmRdLast 0) = .ok (.rdLast 0)) ∧
    ((0 : Nat) ≤ 4 ∧ 4 < 0 + (⟨0, 5⟩ : OutBuf).cap ∧ (⟨4, 5⟩ : OutBuf).base ≤ 4 ∧ 4 < 4 + 5) ∧
    IsPack (.packFixed 0x01 0x2A ⟨0, 5⟩) ⟨0, 5⟩ ∧ IsPack (.packVar 0x01 [] ⟨4, 5⟩) ⟨4, 5⟩ :=
  ⟨⟨List.Sublist.refl _, rfl, rfl⟩, by decide, .inl ⟨_, _, rfl⟩, .inr ⟨_, _, rfl⟩⟩

/-- Two packs into buffers that touch but share no address. -/
theorem witness_OverlappingOrderIsIrrelevant :
    StateInv (pending [.concurrent [asmPackFixed 0x01 0x2A ⟨0, 5⟩, asmPackVar 0x05 [] 4 5]] (one Session.reset)) ∧
    ∃ t, step (pending [.concurrent [asmPackFixed 0x01 0x2A ⟨0, 5⟩, asmPackVar 0x05 [] 4 5]] (one Session.reset)) =
      .next t :=
  ⟨inv_block 255 Session.reset (by decide) (by decide) trivial rfl, _, rfl⟩

/-- The first bytes of program P4, two sessions interleaved. -/
theorem witness_SessionsDoNotInterfere :
    ∃ t, runInstrs [.feed 0 0xAF, .feed 1 0xAF, .feed 0 0x01, .rdLast 1] (block 255 [Session.reset, Session.reset]) =
      .next t := ⟨_, rfl⟩

theorem witness_PastResponsesAndParametersPersist :
    ∃ t, step (pending [.request (asmRdLast 0)] (one afterS2)) = .next t := ⟨_, rfl⟩

theorem witness_StepKeepsInvariant :
    StateInv (pending [.request (feedRequest 0xAF)] (one Session.reset)) ∧
    ∃ t, step (pending [.request (feedRequest 0xAF)] (one Session.reset)) = .next t :=
  ⟨inv_block 255 Session.reset (by decide) (by decide) trivial rfl, _, rfl⟩

theorem witness_NoStepFaultsUnderInvariant : StateInv (pending [.request (feedRequest 0xAF)] (one Session.reset)) :=
  inv_block 255 Session.reset (by decide) (by decide) trivial rfl

/-- The first index that does not exist, written; and one index too many, read. -/
theorem witness_MissingBufIndexFaults :
    (liveSlot? 0 (block 3 [sess .readPayload 3 0x01 3 0 false []]) = some ⟨1, sess .readPayload 3 0x01 3 0 false []⟩ ∧
      (3 : Fin 256).val ≤ (3 : Byte).toNat) ∧
    (liveSlot? 0 (block 3 [sess .readChecksum 4 0x01 4 0 false []]) = some ⟨1, sess .readChecksum 4 0x01 4 0 false []⟩ ∧
      (3 : Fin 256).val < (4 : Byte).toNat) := ⟨⟨rfl, by decide⟩, rfl, by decide⟩

end Sys2Proof.Tests
end

section
/-! PROOFS. `xor_reduce` by its equations and up to the order of the bytes (00_scope.md R14). -/

namespace Sys2Proof.Proofs

open Sys2Proof Sys2Proof.Machine

/-- The second defining equation of `xor_reduce` (00_scope.md R14). -/
theorem xorReduce_append_singleton (q : List Byte) (b : Byte) : xorReduce (q ++ [b]) = xorReduce q ^^^ b := by
  rw [xorReduce, List.foldl_concat, xorReduce]

/-- Two neighbouring bytes may change places because `^` is commutative and associative; every permutation is a
chain of such exchanges. -/
theorem xorReduce_eq_of_perm {q q' : List Byte} (h : q.Perm q') : xorReduce q = xorReduce q' := by
  induction h with
  | nil => rfl
  | cons b _ ih => rw [xorReduce_cons, xorReduce_cons, ih]
  | swap a b q =>
    simp only [xorReduce_cons]
    rw [← BitVec.xor_assoc, BitVec.xor_comm b a, BitVec.xor_assoc]
  | trans _ _ ih ih' => exact ih.trans ih'

/-- Settles O14: the two equations of `xor_reduce`, then the induction over the permutation. -/
theorem xorReduceIsTheFold : Obligations.XorReduceIsTheFold :=
  ⟨xorReduce_nil, xorReduce_append_singleton, fun _ _ h => xorReduce_eq_of_perm h⟩

end Sys2Proof.Proofs
end

section
/-! PROOFS. What a session in the middle of a frame keeps of the bytes it was fed: every `BUF` byte a `FrameReady` carries
was written in that frame (10_state.md R28, R29). -/

namespace Sys2Proof.Proofs

open Sys2Proof Sys2Proof.Machine

/-- The stream `bs` ends with a header, the length `l`, the command `c` and `n` payload bytes, and these payload bytes are
what stands in `BUF[0..n)`. -/
def EndsInStoredPayload (bs : List Byte) (l c : Byte) (buf : Memory) (n : Nat) : Prop :=
  ∃ pre p, bs = pre ++ [0xAF, l, c] ++ p ∧ p.length = n ∧ ∀ k, k < p.length → memRead buf k = p[k]?

theorem endsInStoredPayload_of_command (pre : List Byte) (l c : Byte) (buf : Memory) :
    EndsInStoredPayload (pre ++ [0xAF, l] ++ [c]) l c buf 0 :=
  ⟨pre, [], by simp, rfl, fun _ hk => absurd hk (Nat.not_lt_zero _)⟩

theorem EndsInStoredPayload.store {bs : List Byte} {l c : Byte} {buf : Memory} {n : Nat}
    (h : EndsInStoredPayload bs l c buf n) (b : Byte) :
    EndsInStoredPayload (bs ++ [b]) l c (memWrite buf n b) (n + 1) := by
  obtain ⟨pre, p, rfl, rfl, hp⟩ := h
  refine ⟨pre, p ++ [b], List.append_assoc _ _ _, by simp, fun k hk => ?_⟩
  by_cases hlt : k < p.length
  · rw [memRead_memWrite_other _ _ (by omega), hp k hlt, List.getElem?_append_left hlt]
  · obtain rfl : k = p.length := by simp at hk; omega
    simp

/-- `BUF` then reads as the bytes of the stream, whatever the unwritten bytes read as. -/
theorem EndsInStoredPayload.bytes {bs : List Byte} {l c : Byte} {buf : Memory} {n : Nat}
    (h : EndsInStoredPayload bs l c buf n) (free : Nat → Byte) :
    ∃ pre, bs = pre ++ [0xAF, l, c] ++ bufBytes free buf n := by
  obtain ⟨pre, p, rfl, rfl, hp⟩ := h
  exact ⟨pre, by rw [bufBytes_of_written hp]⟩

/-- What a session that started in `WaitHeader` keeps of the bytes `bs` fed to it since, by the state it is in. -/
def KeepsFrame (bs : List Byte) (x : Session) : Prop :=
  match x.state with
  | .waitHeader => True
  | .readLength => ∃ pre, bs = pre ++ [0xAF]
  | .readCommand => x.writeIndex = 0 ∧ ∃ pre, bs = pre ++ [0xAF, x.pendingLength]
  | .readPayload =>
    x.writeIndex.toNat < x.pendingLength.toNat ∧
    EndsInStoredPayload bs x.pendingLength x.pendingCommand x.buf x.writeIndex.toNat
  | .readChecksum => EndsInStoredPayload bs x.pendingLength x.pendingCommand x.buf x.pendingLength.toNat

theorem keepsFrame_waitHeader {bs : List Byte} {x : Session} (hs : x.state = .waitHeader) : KeepsFrame bs x := by
  simp [KeepsFrame, hs]

theorem keepsFrame_readLength {bs : List Byte} {x : Session} (hs : x.state = .readLength) :
    KeepsFrame bs x ↔ ∃ pre, bs = pre ++ [0xAF] := by simp [KeepsFrame, hs]

theorem keepsFrame_readCommand {bs : List Byte} {x : Session} (hs : x.state = .readCommand) :
    KeepsFrame bs x ↔ x.writeIndex = 0 ∧ ∃ pre, bs = pre ++ [0xAF, x.pendingLength] := by simp [KeepsFrame, hs]

theorem keepsFrame_readPayload {bs : List Byte} {x : Session} (hs : x.state = .readPayload) :
    KeepsFrame bs x ↔ x.writeIndex.toNat < x.pendingLength.toNat ∧
      EndsInStoredPayload bs x.pendingLength x.pendingCommand x.buf x.writeIndex.toNat := by simp [KeepsFrame, hs]

theorem keepsFrame_readChecksum {bs : List Byte} {x : Session} (hs : x.state = .readChecksum) :
    KeepsFrame bs x ↔ EndsInStoredPayload bs x.pendingLength x.pendingCommand x.buf x.pendingLength.toNat := by
  simp [KeepsFrame, hs]

/-- The command byte leads to the checksum when the pending length is 0, and to the payload otherwise
(42_parser.md R111, R112). -/
theorem keepsFrame_command {bs : List Byte} {x : Session} (b : Byte) (hs : x.state = .readCommand) (hx : KeepsFrame bs x) :
    KeepsFrame (bs ++ [b]) { x with pendingCommand := b,
                                    state := if x.pendingLength = 0 then .readChecksum else .readPayload } := by
  obtain ⟨hw, pre, rfl⟩ := (keepsFrame_readCommand hs).1 hx
  have hstored := endsInStoredPayload_of_command pre x.pendingLength b x.buf
  by_cases h0 : x.pendingLength = 0
  · rw [keepsFrame_readChecksum (if_pos h0)]
    simpa [h0] using hstored
  · have hpos : x.pendingLength.toNat ≠ 0 := byte_toNat_ne h0
    rw [keepsFrame_readPayload (if_neg h0)]
    simpa [hw, Nat.pos_iff_ne_zero, hpos] using hstored

/-- A payload byte leads to the checksum when it is the last, and to the next payload byte otherwise
(42_parser.md R113). -/
theorem keepsFrame_payload {bs : List Byte} {x : Session} (b : Byte) (hs : x.state = .readPayload) (hx : KeepsFrame bs x) :
    KeepsFrame (bs ++ [b]) { x with
      buf := memWrite x.buf x.writeIndex.toNat b, writeIndex := x.writeIndex + 1,
      state := if x.writeIndex + 1 = x.pendingLength then .readChecksum else .readPayload } := by
  obtain ⟨hlt, hstored⟩ := (keepsFrame_readPayload hs).1 hx
  have hsucc : (x.writeIndex + 1).toNat = x.writeIndex.toNat + 1 := by bv_omega
  have hstored' := hstored.store b
  rw [← hsucc] at hstored'
  by_cases hlast : x.writeIndex + 1 = x.pendingLength
  · rw [hlast] at hstored'
    exact (keepsFrame_readChecksum (if_pos hlast)).2 hstored'
  · have hne : (x.writeIndex + 1).toNat ≠ x.pendingLength.toNat := byte_toNat_ne hlast
    exact (keepsFrame_readPayload (if_neg hlast)).2 ⟨by dsimp only; omega, hstored'⟩

/-- One transition keeps it, row by row of 42_parser.md R117. -/
theorem feedStep_keepsFrame {mp : Fin 256} {free : Nat → Byte} {b : Byte} {bs : List Byte} {x y : Session} {r : Response}
    (h : feedStep mp free b x = .ok (y, r)) (hx : KeepsFrame bs x) : KeepsFrame (bs ++ [b]) y := by
  rcases feedStep_cases h with ⟨-, rfl, rfl, -⟩ | ⟨hs, -, rfl, -⟩ | ⟨hs, -, rfl, -⟩ | ⟨-, -, rfl, -⟩ | ⟨hs, rfl, -⟩ |
    ⟨hs, -, rfl, -⟩ | ⟨-, -, -, rfl, -⟩ | ⟨-, -, -, rfl, -⟩
  · exact (keepsFrame_readLength rfl).2 ⟨bs, rfl⟩
  · exact keepsFrame_waitHeader hs
  · obtain ⟨pre, rfl⟩ := (keepsFrame_readLength hs).1 hx
    exact (keepsFrame_readCommand rfl).2 ⟨rfl, pre, List.append_assoc _ _ _⟩
  · exact keepsFrame_waitHeader rfl
  · exact keepsFrame_command b hs hx
  · exact keepsFrame_payload b hs hx
  · exact keepsFrame_waitHeader rfl
  · exact keepsFrame_waitHeader rfl

theorem feedList_keepsFrame {mp : Fin 256} {free : Nat → Byte} {bs : List Byte} {x y : Session} {rs : List Response}
    (h : feedList mp free bs x = .ok (y, rs)) {fed : List Byte} (hx : KeepsFrame fed x) : KeepsFrame (fed ++ bs) y := by
  induction bs generalizing x rs fed with
  | nil => cases h; simpa using hx
  | cons b bs ih =>
    obtain ⟨z, r, rs', hf, hl, rfl⟩ := feedList_cons_inv h
    simpa using ih hl (feedStep_keepsFrame hf hx)

/-- Only the ReadChecksum row answers `FrameReady`, with the pending bytes of `BUF` (42_parser.md R115). -/
theorem feedStep_frameReady {mp : Fin 256} {free : Nat → Byte} {b : Byte} {x y : Session} {r : Response}
    (h : feedStep mp free b x = .ok (y, r)) (hr : r.kind = .frameReady) :
    x.state = .readChecksum ∧ r.bytes = bufBytes free x.buf x.pendingLength.toNat := by
  rcases feedStep_cases h with ⟨-, -, -, rfl⟩ | ⟨-, -, -, rfl⟩ | ⟨-, -, -, rfl⟩ | ⟨-, -, -, rfl⟩ | ⟨-, -, rfl⟩ |
    ⟨-, -, -, rfl⟩ | ⟨hs, -, -, -, rfl⟩ | ⟨-, -, -, -, rfl⟩ <;> cases hr
  exact ⟨hs, rfl⟩

/-- A `FrameReady` that follows the bytes `bs` carries the bytes of `bs` after the frame's header, length and command. -/
theorem frameReady_bytes_of_keepsFrame {mp : Fin 256} {free : Nat → Byte} {b : Byte} {bs : List Byte} {x y : Session}
    {r : Response} (hx : KeepsFrame bs x) (h : feedStep mp free b x = .ok (y, r)) (hr : r.kind = .frameReady) :
    ∃ pre l c, bs = pre ++ [0xAF, l, c] ++ r.bytes ∧ l.toNat = r.bytes.length := by
  obtain ⟨hs, hbytes⟩ := feedStep_frameReady h hr
  obtain ⟨pre, hpre⟩ := ((keepsFrame_readChecksum hs).1 hx).bytes free
  exact ⟨pre, x.pendingLength, x.pendingCommand, hbytes ▸ hpre, by rw [hbytes, bufBytes_length]⟩

/-- Settles O13: the reset values are read off; `KeepsFrame` holds of a session in `WaitHeader`, every byte fed keeps it,
and where `FrameReady` is answered it says which bytes `BUF` holds. -/
theorem resetValuesAndUnwrittenBuf : Obligations.ResetValuesAndUnwrittenBuf := by
  refine ⟨fun sl hsl => ?_, fun s t u sid b sl bs p w hl hs hrun hfeed hresp => ?_⟩
  · obtain rfl : sl = ⟨1, Session.reset⟩ := List.eq_of_mem_replicate hsl
    exact ⟨rfl, rfl, rfl, rfl, rfl, rfl, fun _ => rfl⟩
  · obtain ⟨x, rs, hlist, rfl⟩ := feedList_of_runFeeds hl hrun
    have hkeeps : KeepsFrame bs x := feedList_keepsFrame hlist (fed := []) (keepsFrame_waitHeader hs)
    obtain ⟨y, r, hstep, rfl⟩ := exec_feed_next (liveSlot?_afterFeeds hl) hfeed
    obtain rfl : r = ⟨.frameReady, w, p⟩ := by simpa using hresp
    exact frameReady_bytes_of_keepsFrame hkeeps hstep rfl

end Sys2Proof.Proofs
end

section
/-! PROOFS. The memory rules of 20_memory.md: state persists while the block idles (R49), a pack writes exactly its frame
(R40), and overlapping requests that conflict are refused (R44). -/

namespace Sys2Proof.Proofs

open Sys2Proof Sys2Proof.Machine

/-! Idling. -/

/-- With nothing pending a step leaves the state as it is (20_memory.md R49). -/
theorem step_idle {s : State} (h : s.inbox = []) : step s = .next s := by simp only [step, nextAction, h]

/-- A run of one step more, from a state the step leads on from. -/
theorem run_succ_of_step {s t : State} (h : step s = .next t) (k : Nat) :
    Host.Core.run core (k + 1) s = Host.Core.run core k t := by
  have hstep : core.step s = .next t := h
  simp only [Host.Core.run, hstep]

/-- Settles O9, by induction on the number of steps: each is an idle step, and leaves the state it found. -/
theorem idleBlockKeepsItsState : Obligations.IdleBlockKeepsItsState := by
  intro s k h
  induction k with
  | zero => rfl
  | succ k ih =>
    rw [run_succ_of_step (step_idle h), ih]

/-! Packs. -/

/-- Everything a pack that answers can do: emit a frame that fits its buffer, or report an error and nothing else
(41_encoder.md R91, R94 to R96). -/
theorem exec_pack_cases {i : Instr} {o : OutBuf} {s t : State} (hi : IsPack i o) (h : exec i s = .next t) :
    (∃ f, f.length ≤ o.cap ∧ t = emitFrame o f s) ∨ ∃ k, k ≠ .ok ∧ t = respond (bare k) s := by
  obtain ⟨c, d, rfl⟩ | ⟨c, p, rfl⟩ := hi
  · simp only [exec, execPackFixed] at h
    split at h
    · cases h
    · next hcap => cases h; exact .inl ⟨_, by simpa using hcap, rfl⟩
  · simp only [exec, execPackVar] at h
    split at h
    · cases h; exact .inr ⟨.sizeExceeded, nofun, rfl⟩
    · split at h
      · cases h; exact .inr ⟨.capacityViolation, nofun, rfl⟩
      · next hcap => cases h; exact .inl ⟨_, by simpa using hcap, rfl⟩

theorem memRead_memWriteBytes_inside (m : Memory) (base : Nat) {vs : List Byte} {k : Nat} (h : k < vs.length) :
    memRead (memWriteBytes m base vs) (base + k) = vs[k]? := by
  simp [memRead_memWriteBytes, h]

theorem memRead_memWriteBytes_outside (m : Memory) {base a : Nat} {vs : List Byte}
    (h : a < base ∨ base + vs.length ≤ a) : memRead (memWriteBytes m base vs) a = memRead m a := by
  rw [memRead_memWriteBytes, if_neg (by omega)]

/-- Settles O22: a pack that answers emitted its frame, whose bytes are the writes to `OUT`, or it reported an error and
wrote nothing. -/
theorem packWritesExactlyItsFrame : Obligations.PackWritesExactlyItsFrame := by
  intro i o s t hi h
  obtain ⟨f, hcap, rfl⟩ | ⟨k, hk, rfl⟩ := exec_pack_cases hi h
  · refine ⟨_, emitFrame_responses o f s, fun _ => ⟨hcap, rfl, fun k hk => ?_, fun a ha => ?_⟩, fun hne => absurd rfl hne⟩
    · exact memRead_memWriteBytes_inside s.out o.base hk
    · exact memRead_memWriteBytes_outside s.out ha
  · exact ⟨_, respond_responses (bare k) s, fun hok => absurd hok hk, fun _ _ => rfl⟩

/-! Overlapping requests. -/

/-- What a step does with overlapping requests at the head of the queue. -/
theorem step_concurrent {s : State} {rs : List Request} {rest : List HostAction} (h : s.inbox = .concurrent rs :: rest) :
    step s = serveConcurrent rs { s with inbox := rest } := by simp only [step, nextAction, h, perform]

theorem serveConcurrent_refused {rs : List Request} {s : State} {e : Refusal}
    (h : overlapRefusal (rs.filterMap fun r => (decode s.nSessions r).toOption) = some e) :
    serveConcurrent rs s = .refused e := by simp only [serveConcurrent, h]

/-- Two members of a list in their order, however far apart, are one of the pairs `anyPair` looks at. -/
theorem anyPair_of_sublist {p : Instr → Instr → Bool} {i j : Instr} {is : List Instr} (h : [i, j].Sublist is)
    (hp : p i j = true) : anyPair p is = true := by
  induction is with
  | nil => cases h
  | cons k is ih =>
    rw [anyPair, Bool.or_eq_true]
    cases h with
    | cons _ h => exact .inr (ih h)
    | cons_cons _ h => exact .inl (List.any_eq_true.2 ⟨j, List.singleton_sublist.1 h, hp⟩)

/-- Two requests that decode put their operations, in their order, among those the overlap is judged by. -/
theorem decoded_sublist {n : Nat} {rs : List Request} {r r' : Request} {i i' : Instr} (h : [r, r'].Sublist rs)
    (hr : decode n r = .ok i) (hr' : decode n r' = .ok i') :
    [i, i'].Sublist (rs.filterMap fun r => (decode n r).toOption) := by
  simpa [hr, hr', Except.toOption] using h.filterMap fun r => (decode n r).toOption

theorem overlapRefusal_of_sharesSession {i i' : Instr} {is : List Instr} (h : [i, i'].Sublist is)
    (hs : sharesSession i i' = true) : overlapRefusal is = some .concurrentSession := by
  rw [overlapRefusal, if_pos (anyPair_of_sublist h hs)]

/-- A conflict on a session, where there is one too, is the reason given. -/
theorem overlapRefusal_of_sharesOut {i i' : Instr} {is : List Instr} (h : [i, i'].Sublist is)
    (ho : sharesOut i i' = true) :
    overlapRefusal is = some .concurrentSession ∨ overlapRefusal is = some .overlappingOut := by
  by_cases hs : anyPair sharesSession is = true
  · exact .inl (if_pos hs)
  · exact .inr (by rw [overlapRefusal, if_neg hs, if_pos (anyPair_of_sublist h ho)])

theorem sharesSession_of_session {i i' : Instr} {sid : Byte} (h : i.session? = some sid) (h' : i'.session? = some sid) :
    sharesSession i i' = true := by simp [sharesSession, h, h']

theorem outBuf?_of_isPack {i : Instr} {o : OutBuf} (h : IsPack i o) : outBuf? i = some o := by
  obtain ⟨_, _, rfl⟩ | ⟨_, _, rfl⟩ := h <;> rfl

theorem buffersOverlap_of_common {o o' : OutBuf} {a : Nat} (h : o.base ≤ a ∧ a < o.base + o.cap)
    (h' : o'.base ≤ a ∧ a < o'.base + o'.cap) : buffersOverlap o o' = true := by
  simp only [buffersOverlap, Bool.and_eq_true, decide_eq_true_eq]
  omega

theorem sharesOut_of_common {i i' : Instr} {o o' : OutBuf} {a : Nat} (hi : IsPack i o) (hi' : IsPack i' o')
    (h : o.base ≤ a ∧ a < o.base + o.cap) (h' : o'.base ≤ a ∧ a < o'.base + o'.cap) : sharesOut i i' = true := by
  simp only [sharesOut, outBuf?_of_isPack hi, outBuf?_of_isPack hi', buffersOverlap_of_common h h']

/-- Settles O51: the two conflicting operations are a pair of the decoded list, and the pair is what refuses the step. -/
theorem overlappingConflictsAreRefused : Obligations.OverlappingConflictsAreRefused := by
  intro s rs rest r r' i i' hq hsub hr hr'
  have hpair : [i, i'].Sublist (rs.filterMap fun r => (decode s.nSessions r).toOption) := decoded_sublist hsub hr hr'
  rw [step_concurrent hq]
  refine ⟨fun sid hi hi' => ?_, fun o o' a hi hi' ha hac ha' hac' => ?_⟩
  · exact serveConcurrent_refused (overlapRefusal_of_sharesSession hpair (sharesSession_of_session hi hi'))
  · have hshare : sharesOut i i' = true := sharesOut_of_common hi hi' ⟨ha, hac⟩ ⟨ha', hac'⟩
    exact (overlapRefusal_of_sharesOut hpair hshare).imp serveConcurrent_refused serveConcurrent_refused

end Sys2Proof.Proofs
end

section
/-! PROOFS. The request interface: decoding follows the case table of 30_encoding.md R62, and a request that does not decode
is answered `IllegalRequest` (R64). -/

namespace Sys2Proof.Proofs

open Sys2Proof Sys2Proof.Machine

/-! Decoding, one equation per row of the case table. -/

theorem decode_feed {n : Nat} {r : Request} (hop : r.op = 0x01) (hb : r.b = 0) (hsid : r.sid.toNat < n) :
    decode n r = .ok (.feed r.sid r.a) := by simp [decode, decodeFields, onSession, hop, hb, hsid]

theorem decode_packFixed {n : Nat} {r : Request} (hop : r.op = 0x02) (hsid : r.sid = 0) :
    decode n r = .ok (.packFixed r.a r.b r.out) := by simp [decode, decodeFields, stateless, hop, hsid]

theorem decode_packVar {n : Nat} {r : Request} (hop : r.op = 0x03) (hb : r.b = 0) (hsid : r.sid = 0) :
    decode n r = .ok (.packVar r.a r.seq r.out) := by simp [decode, decodeFields, stateless, hop, hb, hsid]

theorem decode_checksum {n : Nat} {r : Request} (hop : r.op = 0x04) (ha : r.a = 0) (hb : r.b = 0) (hsid : r.sid = 0) :
    decode n r = .ok (.checksum r.seq) := by simp [decode, decodeFields, stateless, hop, ha, hb, hsid]

theorem decode_rdConnected {n : Nat} {r : Request} (hop : r.op = 0x05) (ha : r.a = 0) (hb : r.b = 0)
    (hsid : r.sid.toNat < n) : decode n r = .ok (.rdConnected r.sid) := by
  simp [decode, decodeFields, onSession, hop, ha, hb, hsid]

theorem decode_rdErrcnt {n : Nat} {r : Request} (hop : r.op = 0x06) (ha : r.a = 0) (hb : r.b = 0)
    (hsid : r.sid.toNat < n) : decode n r = .ok (.rdErrcnt r.sid) := by
  simp [decode, decodeFields, onSession, hop, ha, hb, hsid]

theorem decode_rdLast {n : Nat} {r : Request} (hop : r.op = 0x07) (ha : r.a = 0) (hb : r.b = 0)
    (hsid : r.sid.toNat < n) : decode n r = .ok (.rdLast r.sid) := by
  simp [decode, decodeFields, onSession, hop, ha, hb, hsid]

/-- What decodes to no operation is `ILLEGAL`. -/
theorem decode_error_of_not_ok {n : Nat} {r : Request} (h : ∀ i, decode n r ≠ .ok i) : ∃ e, decode n r = .error e := by
  cases hd : decode n r with
  | ok i => exact absurd hd (h i)
  | error e => exact ⟨e, rfl⟩

/-- Settles O3: each row by its equation; a request that decodes has met the guards of its row, so one that meets none is
an error. -/
theorem decodeFollowsTheCaseTable : Obligations.DecodeFollowsTheCaseTable := by
  intro n word seq out op a b sid r
  refine ⟨fun ⟨hop, hb, hsid⟩ => decode_feed (r := r) hop hb hsid, fun ⟨hop, hsid⟩ => decode_packFixed (r := r) hop hsid,
    fun ⟨hop, hb, hsid⟩ => decode_packVar (r := r) hop hb hsid,
    fun ⟨hop, ha, hb, hsid⟩ => decode_checksum (r := r) hop ha hb hsid,
    fun ⟨hop, ha, hb, hsid⟩ => decode_rdConnected (r := r) hop ha hb hsid,
    fun ⟨hop, ha, hb, hsid⟩ => decode_rdErrcnt (r := r) hop ha hb hsid,
    fun ⟨hop, ha, hb, hsid⟩ => decode_rdLast (r := r) hop ha hb hsid,
    fun hfeed hfixed hvar hchecksum hread => decode_error_of_not_ok fun i hi => ?_⟩
  rcases decode_ok_cases hi with ⟨hop, hb, hsid, -⟩ | ⟨hop, hsid, -⟩ | ⟨hop, hb, hsid, -⟩ | ⟨hop, ha, hb, hsid, -⟩ |
    ⟨hop, ha, hb, hsid, -⟩ | ⟨hop, ha, hb, hsid, -⟩ | ⟨hop, ha, hb, hsid, -⟩
  · exact hfeed ⟨hop, hb, hsid⟩
  · exact hfixed ⟨hop, hsid⟩
  · exact hvar ⟨hop, hb, hsid⟩
  · exact hchecksum ⟨hop, ha, hb, hsid⟩
  · exact hread ⟨.inl hop, ha, hb, hsid⟩
  · exact hread ⟨.inr (.inl hop), ha, hb, hsid⟩
  · exact hread ⟨.inr (.inr hop), ha, hb, hsid⟩

/-! Reserved requests. -/

/-- The reserved requests of 30_encoding.md R64, by the fields as the decoder names them. -/
theorem reserved_iff (n : Nat) (r : Request) :
    Reserved n r.word ↔
      (r.op = 0x00 ∨ 0x08 ≤ r.op.toNat) ∨
      (r.op = 0x01 ∧ (r.b ≠ 0 ∨ n ≤ r.sid.toNat)) ∨
      (r.op = 0x02 ∧ r.sid ≠ 0) ∨
      (r.op = 0x03 ∧ (r.b ≠ 0 ∨ r.sid ≠ 0)) ∨
      (r.op = 0x04 ∧ (r.a ≠ 0 ∨ r.b ≠ 0 ∨ r.sid ≠ 0)) ∨
      ((r.op = 0x05 ∨ r.op = 0x06 ∨ r.op = 0x07) ∧ (r.a ≠ 0 ∨ r.b ≠ 0 ∨ n ≤ r.sid.toNat)) := Iff.rfl

/-- A request that decodes is not reserved: each row's guards are what the reserved fields of its op code deny. -/
theorem not_reserved_of_decode_ok {n : Nat} {r : Request} {i : Instr} (h : decode n r = .ok i) : ¬ Reserved n r.word := by
  rw [reserved_iff]
  rcases decode_ok_cases h with ⟨hop, hb, hsid, -⟩ | ⟨hop, hsid, -⟩ | ⟨hop, hb, hsid, -⟩ | ⟨hop, ha, hb, hsid, -⟩ |
    ⟨hop, ha, hb, hsid, -⟩ | ⟨hop, ha, hb, hsid, -⟩ | ⟨hop, ha, hb, hsid, -⟩
  · simp [hop, hb, hsid]
  · simp [hop, hsid]
  · simp [hop, hb, hsid]
  · simp [hop, ha, hb, hsid]
  · simp [hop, ha, hb, hsid]
  · simp [hop, ha, hb, hsid]
  · simp [hop, ha, hb, hsid]

theorem decode_error_of_reserved {n : Nat} {r : Request} (h : Reserved n r.word) : ∃ e, decode n r = .error e :=
  decode_error_of_not_ok fun _ hi => not_reserved_of_decode_ok hi h

/-! Serving a request, by what it decodes to. -/

theorem serveRequest_of_ok {r : Request} {s : State} {i : Instr} (h : decode s.nSessions r = .ok i) :
    serveRequest r s = exec i s := by simp only [serveRequest, h]

theorem serveRequest_of_error {r : Request} {s : State} {e : Illegal} (h : decode s.nSessions r = .error e) :
    serveRequest r s = .next (respond (bare .illegalRequest) s) := by simp only [serveRequest, h]

/-- Settles O8: a reserved request does not decode, and what does not decode is answered with a response and nothing else. -/
theorem reservedRequestIsAnsweredIllegal : Obligations.ReservedRequestIsAnsweredIllegal := by
  refine ⟨rfl, fun s r rest hq hres => ?_⟩
  obtain ⟨e, he⟩ := decode_error_of_reserved hres
  exact ⟨_, (step_request hq).trans (serveRequest_of_error he), rfl, rfl, rfl, rfl, rfl⟩

end Sys2Proof.Proofs
end

section
/-! PROOFS. The layout of a frame (30_encoding.md R50, R55), and that every frame the encoder answers has it
(41_encoder.md R91, R94). -/

namespace Sys2Proof.Proofs

open Sys2Proof Sys2Proof.Machine

/-! The fields of a frame. -/

theorem frameWith_fields (l c : Byte) (p : List Byte) :
    (frameWith l c p)[0]? = some 0xAF ∧ (frameWith l c p)[1]? = some l ∧ (frameWith l c p)[2]? = some c := ⟨rfl, rfl, rfl⟩

theorem frameWith_payload (l c : Byte) {p : List Byte} {k : Nat} (h : k < p.length) :
    (frameWith l c p)[3 + k]? = p[k]? := by
  simp [frameWith, Nat.add_comm 3 k, List.getElem?_append_left h]

theorem frameWith_take (l c : Byte) (p : List Byte) :
    (frameWith l c p).take (3 + p.length) = [Config.header, l, c] ++ p :=
  List.take_left' List.length_append

theorem frameWith_checksum (l c : Byte) (p : List Byte) :
    (frameWith l c p)[3 + p.length]? = some (xorReduce ((frameWith l c p).take (3 + p.length))) := by
  rw [frameWith_take]
  simp [frameWith, Nat.add_comm 3]

/-- A frame's bytes XOR to 0, because the last one is the XOR of those before it (30_encoding.md R55). -/
theorem xorReduce_frameWith (l c : Byte) (p : List Byte) : xorReduce (frameWith l c p) = 0x00 := by
  rw [frameWith, xorReduce_append_singleton]
  exact BitVec.xor_self

/-! What the two packs answer. -/

/-- A `PACK_FIXED` that answers emits the frame of the one byte `d` (41_encoder.md R91). -/
theorem exec_packFixed_next {c d : Byte} {o : OutBuf} {s t : State} (h : exec (.packFixed c d o) s = .next t) :
    t = emitFrame o (frameWith 0x01 c [d]) s := by
  have hframe : frameWith 0x01 c [d] = [Config.header, 0x01, c, d, Config.header ^^^ 0x01 ^^^ c ^^^ d] := by
    simp [frameWith, BitVec.xor_assoc]
  simp only [exec, execPackFixed] at h
  split at h
  · cases h
  · rw [hframe]; cases h; rfl

/-- The three outcomes of `PACK_VAR` (41_encoder.md R94 to R96). -/
theorem exec_packVar_cases {c : Byte} {p : List Byte} {o : OutBuf} {s t : State} (h : exec (.packVar c p o) s = .next t) :
    (s.maxPayload.val < p.length ∧ t = respond (bare .sizeExceeded) s) ∨
    (p.length ≤ s.maxPayload.val ∧ o.cap < p.length + 4 ∧ t = respond (bare .capacityViolation) s) ∨
    (p.length ≤ s.maxPayload.val ∧ p.length + 4 ≤ o.cap ∧ t = emitFrame o (frame c p) s) := by
  simp only [exec, execPackVar] at h
  split at h
  · next hlong => cases h; exact .inl ⟨hlong, rfl⟩
  · next hfits =>
    split at h
    · next hcap => cases h; exact .inr (.inl ⟨Nat.le_of_not_lt hfits, hcap, rfl⟩)
    · next hcap => cases h; exact .inr (.inr ⟨Nat.le_of_not_lt hfits, Nat.le_of_not_lt hcap, rfl⟩)

/-- Every frame the encoder answers is a frame whose length byte counts the payload. -/
theorem encoderEmits_eq_frameWith {s : State} {c : Byte} {p f : List Byte} (h : EncoderEmits s c p f) :
    ∃ l, f = frameWith l c p ∧ l.toNat = p.length ∧ (1 ≤ s.maxPayload.val → p.length ≤ s.maxPayload.val) := by
  obtain ⟨o, t, w, hexec, hresp⟩ | ⟨d, o, t, w, rfl, hexec, hresp⟩ := h
  · obtain ⟨-, rfl⟩ | ⟨-, -, rfl⟩ | ⟨hlen, -, rfl⟩ := exec_packVar_cases hexec
    · simp [bare] at hresp
    · simp [bare] at hresp
    · obtain ⟨-, rfl⟩ : _ ∧ frame c p = f := by simpa [okResponse] using hresp
      exact ⟨lengthByte p, rfl, lengthByte_toNat hlen, fun _ => hlen⟩
  · obtain rfl := exec_packFixed_next hexec
    obtain ⟨-, rfl⟩ : _ ∧ frameWith 0x01 c [d] = f := by simpa [okResponse] using hresp
    exact ⟨0x01, rfl, rfl, fun h => h⟩

/-- Settles O23: an emitted frame is `frameWith` of its payload count, and each field is read off that. -/
theorem encoderFrameLayout : Obligations.EncoderFrameLayout := by
  intro s c p f h
  obtain ⟨l, rfl, hl, hmax⟩ := encoderEmits_eq_frameWith h
  obtain ⟨hheader, hlength, hcommand⟩ := frameWith_fields l c p
  exact ⟨frameWith_length l c p, hheader, ⟨l, hlength, hl⟩, hcommand, hmax, fun _ => frameWith_payload l c,
    frameWith_checksum l c p, xorReduce_frameWith l c p⟩

end Sys2Proof.Proofs
end

section
/-! PROOFS. Every request that is answered gets one response, which is a row of the table of 30_encoding.md R63. -/

namespace Sys2Proof.Proofs

open Sys2Proof Sys2Proof.Machine

/-! The table. -/

/-- The operation meets no condition of the table: a pack's payload is within both bounds, and a `FEED` is not at the
checksum byte. -/
def MeetsNoCondition (s : State) : Instr → Prop
  | .feed sid _ => ∀ sl, liveSlot? sid s = some sl → sl.session.state ≠ .readChecksum
  | .packVar _ p o => p.length ≤ s.maxPayload.val ∧ p.length + 4 ≤ o.cap
  | .packFixed _ _ _ => True
  | .checksum _ => True
  | .rdConnected _ => True
  | .rdErrcnt _ => True
  | .rdLast _ => True

/-- The responses in state `s` by what the request decodes to, one row of 30_encoding.md R63 each. -/
inductive AnswerRow (s : State) : Except Illegal Instr → Response → Prop
  | illegalRequest (e : Illegal) : AnswerRow s (.error e) (bare .illegalRequest)
  | sizeExceeded {c : Byte} {p : List Byte} {o : OutBuf} (hlong : s.maxPayload.val < p.length) :
      AnswerRow s (.ok (.packVar c p o)) (bare .sizeExceeded)
  | capacityViolation {c : Byte} {p : List Byte} {o : OutBuf} (hfits : p.length ≤ s.maxPayload.val)
      (hcap : o.cap < p.length + 4) : AnswerRow s (.ok (.packVar c p o)) (bare .capacityViolation)
  | frameReady {sid b : Byte} {sl : Slot} (hlive : liveSlot? sid s = some sl) (hstate : sl.session.state = .readChecksum)
      (hmatch : b = expectedChecksum sl.session (pendingPayload sid sl)) :
      AnswerRow s (.ok (.feed sid b))
        (frameReady sl.session.pendingLength sl.session.pendingCommand (pendingPayload sid sl))
  | checksumError {sid b : Byte} {sl : Slot} (hlive : liveSlot? sid s = some sl)
      (hstate : sl.session.state = .readChecksum) (hmismatch : b ≠ expectedChecksum sl.session (pendingPayload sid sl)) :
      AnswerRow s (.ok (.feed sid b)) (bare .checksumError)
  | ok {i : Instr} {resp : Response} (hnone : MeetsNoCondition s i) (hkind : resp.kind = .ok) : AnswerRow s (.ok i) resp

/-! What the rows say of each kind. -/

section
variable {s : State} {d : Except Illegal Instr} {resp : Response}

theorem AnswerRow.kind_illegalRequest (h : AnswerRow s d resp) : resp.kind = .illegalRequest ↔ ∃ e, d = .error e := by
  constructor
  · intro hk
    cases h with
    | illegalRequest e => exact ⟨e, rfl⟩
    | ok _ hkind => cases hkind.symm.trans hk
    | _ => cases hk
  · rintro ⟨e, rfl⟩
    cases h
    rfl

theorem AnswerRow.kind_sizeExceeded (h : AnswerRow s d resp) :
    resp.kind = .sizeExceeded ↔ ∃ c p o, d = .ok (.packVar c p o) ∧ s.maxPayload.val < p.length := by
  constructor
  · intro hk
    cases h with
    | sizeExceeded hlong => exact ⟨_, _, _, rfl, hlong⟩
    | ok _ hkind => cases hkind.symm.trans hk
    | _ => cases hk
  · rintro ⟨c, p, o, rfl, hlong⟩
    cases h with
    | sizeExceeded => rfl
    | capacityViolation hfits => omega
    | ok hnone => exact absurd hlong (Nat.not_lt_of_le hnone.1)

theorem AnswerRow.kind_capacityViolation (h : AnswerRow s d resp) :
    resp.kind = .capacityViolation ↔
      ∃ c p o, d = .ok (.packVar c p o) ∧ p.length ≤ s.maxPayload.val ∧ o.cap < p.length + 4 := by
  constructor
  · intro hk
    cases h with
    | capacityViolation hfits hcap => exact ⟨_, _, _, rfl, hfits, hcap⟩
    | ok _ hkind => cases hkind.symm.trans hk
    | _ => cases hk
  · rintro ⟨c, p, o, rfl, hfits, hcap⟩
    cases h with
    | sizeExceeded hlong => omega
    | capacityViolation => rfl
    | ok hnone => exact absurd hcap (Nat.not_lt_of_le hnone.2)

theorem AnswerRow.kind_frameReady (h : AnswerRow s d resp) :
    resp.kind = .frameReady ↔ ∃ sid b sl, d = .ok (.feed sid b) ∧ liveSlot? sid s = some sl ∧
      sl.session.state = .readChecksum ∧ b = expectedChecksum sl.session (pendingPayload sid sl) := by
  constructor
  · intro hk
    cases h with
    | frameReady hlive hstate hmatch => exact ⟨_, _, _, rfl, hlive, hstate, hmatch⟩
    | ok _ hkind => cases hkind.symm.trans hk
    | _ => cases hk
  · rintro ⟨sid, b, sl, rfl, hlive, hstate, hmatch⟩
    cases h with
    | frameReady => rfl
    | checksumError hlive' _ hmismatch =>
      obtain rfl := Option.some.inj (hlive.symm.trans hlive')
      exact absurd hmatch hmismatch
    | ok hnone => exact absurd hstate (hnone sl hlive)

theorem AnswerRow.kind_checksumError (h : AnswerRow s d resp) :
    resp.kind = .checksumError ↔ ∃ sid b sl, d = .ok (.feed sid b) ∧ liveSlot? sid s = some sl ∧
      sl.session.state = .readChecksum ∧ b ≠ expectedChecksum sl.session (pendingPayload sid sl) := by
  constructor
  · intro hk
    cases h with
    | checksumError hlive hstate hmismatch => exact ⟨_, _, _, rfl, hlive, hstate, hmismatch⟩
    | ok _ hkind => cases hkind.symm.trans hk
    | _ => cases hk
  · rintro ⟨sid, b, sl, rfl, hlive, hstate, hmismatch⟩
    cases h with
    | frameReady hlive' _ hmatch =>
      obtain rfl := Option.some.inj (hlive.symm.trans hlive')
      exact absurd hmatch hmismatch
    | checksumError => rfl
    | ok hnone => exact absurd hstate (hnone sl hlive)

/-- `FrameReady` carries the pending pair and the payload. -/
theorem AnswerRow.frameReady_contents {sid b : Byte} {sl : Slot} (h : AnswerRow s d resp) (hd : d = .ok (.feed sid b))
    (hlive : liveSlot? sid s = some sl) (hk : resp.kind = .frameReady) :
    resp = Machine.frameReady sl.session.pendingLength sl.session.pendingCommand (pendingPayload sid sl) := by
  subst hd
  cases h with
  | frameReady hlive' =>
    obtain rfl := Option.some.inj (hlive.symm.trans hlive')
    rfl
  | checksumError => cases hk
  | ok _ hkind => cases hkind.symm.trans hk

/-- Every error kind carries word 0 and no bytes. -/
theorem AnswerRow.error_contents (h : AnswerRow s d resp) (hok : resp.kind ≠ .ok) (hframe : resp.kind ≠ .frameReady) :
    resp.word = 0 ∧ resp.bytes = [] := by
  cases h with
  | frameReady => exact absurd rfl hframe
  | ok _ hkind => exact absurd hkind hok
  | _ => exact ⟨rfl, rfl⟩

end

/-! Every answer is a row. -/

/-- What a transition answers: nothing before the checksum byte, and there one of the two events (42_parser.md R114 to
R117). -/
theorem feedStep_response_cases {mp : Fin 256} {free : Nat → Byte} {b : Byte} {x y : Session} {r : Response}
    (h : feedStep mp free b x = .ok (y, r)) :
    (x.state ≠ .readChecksum ∧ r = noEvent) ∨
    (x.state = .readChecksum ∧ b = expectedChecksum x (bufBytes free x.buf x.pendingLength.toNat) ∧
      r = frameReady x.pendingLength x.pendingCommand (bufBytes free x.buf x.pendingLength.toNat)) ∨
    (x.state = .readChecksum ∧ b ≠ expectedChecksum x (bufBytes free x.buf x.pendingLength.toNat) ∧
      r = bare .checksumError) := by
  rcases feedStep_cases h with ⟨hs, -, -, hr⟩ | ⟨hs, -, -, hr⟩ | ⟨hs, -, -, hr⟩ | ⟨hs, -, -, hr⟩ | ⟨hs, -, hr⟩ |
    ⟨hs, -, -, hr⟩ | ⟨hs, -, hb, -, hr⟩ | ⟨hs, -, hb, -, hr⟩
  · exact .inl ⟨by simp [hs], hr⟩
  · exact .inl ⟨by simp [hs], hr⟩
  · exact .inl ⟨by simp [hs], hr⟩
  · exact .inl ⟨by simp [hs], hr⟩
  · exact .inl ⟨by simp [hs], hr⟩
  · exact .inl ⟨by simp [hs], hr⟩
  · exact .inr (.inl ⟨hs, hb, hr⟩)
  · exact .inr (.inr ⟨hs, hb, hr⟩)

/-- A session operation on a session the block has, if it answers, ran on a live session. -/
theorem withSession_next {sid : Byte} {s t : State} {k : Slot → Result} (hsid : sid.toNat < s.nSessions)
    (h : withSession sid s k = .next t) : ∃ sl, liveSlot? sid s = some sl ∧ k sl = .next t := by
  rcases withSession_cases sid s k with ⟨sl, hlive, e⟩ | ⟨_, _, _, e⟩ | ⟨hnone, _⟩
  · exact ⟨sl, hlive, e.symm.trans h⟩
  · cases e.symm.trans h
  · exact absurd hsid (Nat.not_lt_of_le (List.getElem?_eq_none_iff.1 hnone))

theorem feed_answerRow {sid b : Byte} {s t : State} (hsid : sid.toNat < s.nSessions) (h : exec (.feed sid b) s = .next t) :
    ∃ resp, t.responses = s.responses ++ [resp] ∧ AnswerRow s (.ok (.feed sid b)) resp := by
  obtain ⟨sl, hlive, -⟩ := withSession_next hsid h
  obtain ⟨y, r, hstep, rfl⟩ := exec_feed_next hlive h
  refine ⟨r, rfl, ?_⟩
  rcases feedStep_response_cases hstep with ⟨hs, rfl⟩ | ⟨hs, hb, rfl⟩ | ⟨hs, hb, rfl⟩
  · refine .ok (fun sl' hlive' => ?_) rfl
    obtain rfl := Option.some.inj (hlive.symm.trans hlive')
    exact hs
  · exact .frameReady hlive hs hb
  · exact .checksumError hlive hs hb

theorem packVar_answerRow {c : Byte} {p : List Byte} {o : OutBuf} {s t : State} (h : exec (.packVar c p o) s = .next t) :
    ∃ resp, t.responses = s.responses ++ [resp] ∧ AnswerRow s (.ok (.packVar c p o)) resp := by
  obtain ⟨hlong, rfl⟩ | ⟨hfits, hcap, rfl⟩ | ⟨hfits, hcap, rfl⟩ := exec_packVar_cases h
  · exact ⟨_, rfl, .sizeExceeded hlong⟩
  · exact ⟨_, rfl, .capacityViolation hfits hcap⟩
  · exact ⟨_, rfl, .ok ⟨hfits, hcap⟩ rfl⟩

/-- An accessor of a session the block has answers `Ok` (43_accessors.md R131). -/
theorem readSession_answers_ok {sid : Byte} {w : Session → Word} {s t : State} (hsid : sid.toNat < s.nSessions)
    (h : readSession sid w s = .next t) : ∃ resp, t.responses = s.responses ++ [resp] ∧ resp.kind = .ok := by
  obtain ⟨sl, -, hsl⟩ := withSession_next hsid h
  cases hsl
  exact ⟨_, rfl, rfl⟩

/-- A well-formed operation that answers does so with one row of the table. -/
theorem exec_answerRow {i : Instr} {s t : State} (hwf : ∀ sid, i.session? = some sid → sid.toNat < s.nSessions)
    (h : exec i s = .next t) : ∃ resp, t.responses = s.responses ++ [resp] ∧ AnswerRow s (.ok i) resp := by
  cases i with
  | feed sid b => exact feed_answerRow (hwf sid rfl) h
  | packFixed c d o =>
    obtain rfl := exec_packFixed_next h
    exact ⟨_, rfl, .ok trivial rfl⟩
  | packVar c p o => exact packVar_answerRow h
  | checksum q => cases h; exact ⟨_, rfl, .ok trivial rfl⟩
  | rdConnected sid =>
    obtain ⟨resp, hresp, hkind⟩ := readSession_answers_ok (hwf sid rfl) h
    exact ⟨resp, hresp, .ok trivial hkind⟩
  | rdErrcnt sid =>
    obtain ⟨resp, hresp, hkind⟩ := readSession_answers_ok (hwf sid rfl) h
    exact ⟨resp, hresp, .ok trivial hkind⟩
  | rdLast sid =>
    obtain ⟨resp, hresp, hkind⟩ := readSession_answers_ok (w := fun x => lengthCommandWord x.pendingLength x.pendingCommand)
      (hwf sid rfl) h
    exact ⟨resp, hresp, .ok trivial hkind⟩

/-- What decodes names a session of the block, if it names one (30_encoding.md R61). -/
theorem session_lt_of_decode_ok {n : Nat} {r : Request} {i : Instr} {sid : Byte} (h : decode n r = .ok i)
    (hi : i.session? = some sid) : sid.toNat < n := by
  rcases decode_ok_cases h with ⟨-, -, hsid, rfl⟩ | ⟨-, -, rfl⟩ | ⟨-, -, -, rfl⟩ | ⟨-, -, -, -, rfl⟩ |
    ⟨-, -, -, hsid, rfl⟩ | ⟨-, -, -, hsid, rfl⟩ | ⟨-, -, -, hsid, rfl⟩
  · cases hi; exact hsid
  · cases hi
  · cases hi
  · cases hi
  · cases hi; exact hsid
  · cases hi; exact hsid
  · cases hi; exact hsid

theorem serveRequest_answerRow {r : Request} {s t : State} (h : serveRequest r s = .next t) :
    ∃ resp, t.responses = s.responses ++ [resp] ∧ AnswerRow s (decode s.nSessions r) resp := by
  cases hd : decode s.nSessions r with
  | ok i =>
    rw [serveRequest_of_ok hd] at h
    exact exec_answerRow (fun sid => session_lt_of_decode_ok hd) h
  | error e =>
    rw [serveRequest_of_error hd] at h
    cases h
    exact ⟨_, rfl, .illegalRequest e⟩

/-- Settles O48: the answer of a step is a row of the table, and the rows say when each kind is answered and what it
carries. -/
theorem everyRequestGetsOneResponse : Obligations.EveryRequestGetsOneResponse := by
  refine ⟨⟨rfl, rfl, rfl, rfl, rfl, rfl⟩, fun s t r rest hq hstep => ?_⟩
  rw [step_request hq] at hstep
  obtain ⟨resp, hresp, hrow⟩ := serveRequest_answerRow hstep
  refine ⟨resp, hresp, hrow.kind_illegalRequest, hrow.kind_sizeExceeded, hrow.kind_capacityViolation, hrow.kind_frameReady,
    hrow.kind_checksumError, fun sid b sl hk hd hlive => ?_, hrow.error_contents⟩
  obtain rfl := hrow.frameReady_contents hd hlive hk
  exact ⟨rfl, rfl, bufBytes_length _ _ _⟩

end Sys2Proof.Proofs
end

section
/-! PROOFS. A parser that keeps a running XOR simulates the parser that recomputes over `BUF` (40_checksum.md R84): the
accumulator is always the checksum of the bytes of the frame received so far. -/

namespace Sys2Proof.Proofs

open Sys2Proof Sys2Proof.Machine

/-! The relation between the accumulator and `BUF`. -/

theorem bufBytes_memWrite_end (free : Nat → Byte) (m : Memory) (n : Nat) (b : Byte) :
    bufBytes free (memWrite m n b) (n + 1) = bufBytes free m n ++ [b] := by
  have hkept : ∀ k ∈ List.range n, bufByte free (memWrite m n b) k = bufByte free m k := fun k hk => by
    rw [bufByte, memRead_memWrite_other m b (Nat.ne_of_lt (List.mem_range.1 hk)), bufByte]
  simp only [bufBytes, List.range_succ, List.map_append, List.map_congr_left hkept]
  simp [bufByte]

theorem expectedChecksum_append_singleton (x : Session) (p : List Byte) (b : Byte) :
    expectedChecksum x (p ++ [b]) = expectedChecksum x p ^^^ b := by
  rw [expectedChecksum, ← List.append_assoc, xorReduce_append_singleton, expectedChecksum]

/-- The checksum of the frame the session is receiving, over its first `n` payload bytes as they stand in `BUF`. -/
def checksumSoFar (free : Nat → Byte) (x : Session) (n : Nat) : Byte := expectedChecksum x (bufBytes free x.buf n)

/-- What the accumulator holds, by the state the session is in: the XOR of the bytes of the frame received so far. -/
def AccTracks (free : Nat → Byte) (x : Session) (acc : Byte) : Prop :=
  match x.state with
  | .waitHeader => True
  | .readLength => acc = 0xAF
  | .readCommand => x.writeIndex = 0 ∧ acc = 0xAF ^^^ x.pendingLength
  | .readPayload => x.writeIndex.toNat < x.pendingLength.toNat ∧ acc = checksumSoFar free x x.writeIndex.toNat
  | .readChecksum => acc = checksumSoFar free x x.pendingLength.toNat

section
variable {free : Nat → Byte} {x : Session} {acc : Byte}

theorem accTracks_waitHeader (hs : x.state = .waitHeader) : AccTracks free x acc := by simp [AccTracks, hs]

theorem accTracks_readLength (hs : x.state = .readLength) : AccTracks free x acc ↔ acc = 0xAF := by simp [AccTracks, hs]

theorem accTracks_readCommand (hs : x.state = .readCommand) :
    AccTracks free x acc ↔ x.writeIndex = 0 ∧ acc = 0xAF ^^^ x.pendingLength := by simp [AccTracks, hs]

theorem accTracks_readPayload (hs : x.state = .readPayload) :
    AccTracks free x acc ↔
      x.writeIndex.toNat < x.pendingLength.toNat ∧ acc = checksumSoFar free x x.writeIndex.toNat := by simp [AccTracks, hs]

theorem accTracks_readChecksum (hs : x.state = .readChecksum) :
    AccTracks free x acc ↔ acc = checksumSoFar free x x.pendingLength.toNat := by simp [AccTracks, hs]

/-! Every transition keeps it. -/

/-- The command byte completes the part of the frame that is not payload (42_parser.md R111, R112). -/
theorem accTracks_command (b : Byte) (hs : x.state = .readCommand) (hx : AccTracks free x acc) :
    AccTracks free { x with pendingCommand := b,
                            state := if x.pendingLength = 0 then .readChecksum else .readPayload } (acc ^^^ b) := by
  obtain ⟨hw, rfl⟩ := (accTracks_readCommand hs).1 hx
  have hacc : 0xAF ^^^ x.pendingLength ^^^ b = xorReduce [0xAF, x.pendingLength, b] := by simp [BitVec.xor_assoc]
  by_cases h0 : x.pendingLength = 0
  · rw [accTracks_readChecksum (if_pos h0), hacc]
    simp [checksumSoFar, expectedChecksum, Config.header, bufBytes, h0]
  · have hpos : x.pendingLength.toNat ≠ 0 := byte_toNat_ne h0
    rw [accTracks_readPayload (if_neg h0), hacc]
    simp [checksumSoFar, expectedChecksum, Config.header, bufBytes, hw, Nat.pos_iff_ne_zero, hpos]

/-- A payload byte is stored behind the others and folded in (42_parser.md R113). -/
theorem accTracks_payload (b : Byte) (hs : x.state = .readPayload) (hx : AccTracks free x acc) :
    AccTracks free { x with
      buf := memWrite x.buf x.writeIndex.toNat b, writeIndex := x.writeIndex + 1,
      state := if x.writeIndex + 1 = x.pendingLength then .readChecksum else .readPayload } (acc ^^^ b) := by
  obtain ⟨hlt, rfl⟩ := (accTracks_readPayload hs).1 hx
  have hsucc : (x.writeIndex + 1).toNat = x.writeIndex.toNat + 1 := by bv_omega
  have hacc : checksumSoFar free x x.writeIndex.toNat ^^^ b =
      expectedChecksum x (bufBytes free (memWrite x.buf x.writeIndex.toNat b) (x.writeIndex + 1).toNat) := by
    rw [hsucc, bufBytes_memWrite_end, expectedChecksum_append_singleton, checksumSoFar]
  by_cases hlast : x.writeIndex + 1 = x.pendingLength
  · rw [hlast] at hacc
    exact (accTracks_readChecksum (if_pos hlast)).2 hacc
  · have hne : (x.writeIndex + 1).toNat ≠ x.pendingLength.toNat := byte_toNat_ne hlast
    exact (accTracks_readPayload (if_neg hlast)).2 ⟨by dsimp only; omega, hacc⟩

end

/-- The accumulator after the byte `b` (40_checksum.md R84). -/
def nextAcc (st : ParserState) (acc b : Byte) : Byte :=
  match st with
  | .waitHeader => 0x00 ^^^ b
  | .readLength => acc ^^^ b
  | .readCommand => acc ^^^ b
  | .readPayload => acc ^^^ b
  | .readChecksum => acc

section
variable {mp : Fin 256} {free : Nat → Byte} {b : Byte} {x y : Session} {acc : Byte} {r : Response}

/-- One transition keeps the relation, row by row of 42_parser.md R117. -/
theorem feedStep_keeps_accTracks (hx : AccTracks free x acc) (h : feedStep mp free b x = .ok (y, r)) :
    AccTracks free y (nextAcc x.state acc b) := by
  rcases feedStep_cases h with ⟨hs, rfl, rfl, -⟩ | ⟨hs, -, rfl, -⟩ | ⟨hs, -, rfl, -⟩ | ⟨-, -, rfl, -⟩ | ⟨hs, rfl, -⟩ |
    ⟨hs, -, rfl, -⟩ | ⟨-, -, -, rfl, -⟩ | ⟨-, -, -, rfl, -⟩
  · rw [hs]
    exact (accTracks_readLength rfl).2 rfl
  · exact accTracks_waitHeader hs
  · rw [hs, (accTracks_readLength hs).1 hx]
    exact (accTracks_readCommand rfl).2 ⟨rfl, rfl⟩
  · exact accTracks_waitHeader rfl
  · rw [hs]
    exact accTracks_command b hs hx
  · rw [hs]
    exact accTracks_payload b hs hx
  · exact accTracks_waitHeader rfl
  · exact accTracks_waitHeader rfl

/-- The pending length stays within `BUF` (42_parser.md R109, R110). -/
theorem feedStep_keeps_pendingLength_le (hle : x.pendingLength.toNat ≤ mp.val) (h : feedStep mp free b x = .ok (y, r)) :
    y.pendingLength.toNat ≤ mp.val := by
  rcases feedStep_cases h with ⟨-, -, rfl, -⟩ | ⟨-, -, rfl, -⟩ | ⟨-, hb, rfl, -⟩ | ⟨-, -, rfl, -⟩ | ⟨-, rfl, -⟩ |
    ⟨-, -, rfl, -⟩ | ⟨-, -, -, rfl, -⟩ | ⟨-, -, -, rfl, -⟩
  · exact hle
  · exact hle
  · exact hb
  · exact hle
  · exact hle
  · exact hle
  · exact hle
  · exact hle

/-! The two parsers take the same transitions. -/

/-- Where the relation holds the parser does not fault: the index a payload byte is written at is below the pending length,
and the pending length is within `BUF`. -/
theorem feedStep_ok_of_accTracks (b : Byte) (hle : x.pendingLength.toNat ≤ mp.val) (hx : AccTracks free x acc) :
    ∃ y r, feedStep mp free b x = .ok (y, r) := by
  cases hs : x.state with
  | waitHeader => exact ⟨_, _, by rw [feedStep, hs]⟩
  | readLength => exact ⟨_, _, by rw [feedStep, hs]⟩
  | readCommand => exact ⟨_, _, by rw [feedStep, hs]⟩
  | readPayload =>
    have hlt : x.writeIndex.toNat < mp.val := Nat.lt_of_lt_of_le ((accTracks_readPayload hs).1 hx).1 hle
    exact ⟨_, _, feedStep_readPayload hs hlt⟩
  | readChecksum => exact ⟨_, _, feedStep_readChecksum hs hle⟩

/-- Where the relation holds the circuit takes the parser's transition: at the checksum byte it compares with the value the
parser recomputes, and everywhere else the transition does not look at the accumulator. -/
theorem accStep_of_feedStep (hx : AccTracks free x acc) (h : feedStep mp free b x = .ok (y, r)) :
    accStep mp free b ⟨x, acc⟩ = .ok (⟨y, nextAcc x.state acc b⟩, r) := by
  cases hs : x.state <;> simp only [feedStep, hs] at h <;> simp only [accStep, hs]
  case waitHeader => simp only [Except.ok.inj h, nextAcc]
  case readLength => simp only [Except.ok.inj h, nextAcc]
  case readCommand => simp only [Except.ok.inj h, nextAcc]
  case readPayload => simp only [h, nextAcc]
  case readChecksum =>
    cases hp : bufRead mp free x.buf x.pendingLength.toNat with
    | error f => simp only [readChecksumStep, hp, reduceCtorEq] at h
    | ok p =>
      have hacc : acc = expectedChecksum x p := by
        rw [(accTracks_readChecksum hs).1 hx, checksumSoFar, (bufRead_ok hp).2]
      simp only [readChecksumStep, hp] at h
      simp only [hacc, Except.ok.inj h, nextAcc]

end

theorem accList_cons {mp : Fin 256} {free : Nat → Byte} {b : Byte} {bs : List Byte} {y z u : AccSession} {r : Response}
    {rs : List Response} (h : accStep mp free b y = .ok (z, r)) (h' : accList mp free bs z = .ok (u, rs)) :
    accList mp free (b :: bs) y = .ok (u, r :: rs) := by simp [accList, h, h']

/-- The simulation over a byte stream: from related states both parsers run to the same session with the same responses. -/
theorem accList_simulates_feedList {mp : Fin 256} {free : Nat → Byte} (bs : List Byte) {x : Session} {acc : Byte}
    (hle : x.pendingLength.toNat ≤ mp.val) (hx : AccTracks free x acc) :
    ∃ y rs acc', feedList mp free bs x = .ok (y, rs) ∧ accList mp free bs ⟨x, acc⟩ = .ok (⟨y, acc'⟩, rs) := by
  induction bs generalizing x acc with
  | nil => exact ⟨x, [], acc, rfl, rfl⟩
  | cons b bs ih =>
    obtain ⟨z, r, hstep⟩ := feedStep_ok_of_accTracks b hle hx
    obtain ⟨y, rs, acc', hfeed, hacc⟩ :=
      ih (feedStep_keeps_pendingLength_le hle hstep) (feedStep_keeps_accTracks hx hstep)
    exact ⟨y, r :: rs, acc', feedList_cons hstep hfeed, accList_cons (accStep_of_feedStep hx hstep) hacc⟩

/-- Settles O17: in `WaitHeader` the relation holds whatever the accumulator is, and from there the circuit simulates the
parser. -/
theorem runningXorMatchesRecompute : Obligations.RunningXorMatchesRecompute := by
  intro mp free x acc bs hinv hs
  obtain ⟨hle, -⟩ := hinv
  exact accList_simulates_feedList bs hle (accTracks_waitHeader hs)

end Sys2Proof.Proofs
end

section
/-! PROOFS. The CHECKSUM operation and its corner cases (40_checksum.md R82), and the laws of the checksum (R85). -/

namespace Sys2Proof.Proofs

open Sys2Proof Sys2Proof.Machine

/-! The operation. -/

/-- The fixed word of CHECKSUM has the op code and no other field (30_encoding.md R60). -/
theorem decode_checksum_word (n : Nat) (q : List Byte) (o : OutBuf) : decode n ⟨0x00000004, q, o⟩ = .ok (.checksum q) := by
  obtain ⟨hop, ha, hb, hsid⟩ := requestWord_fields 0x00 0x00 0x00 0x04
  exact decode_checksum (r := ⟨0x00000004, q, o⟩) hop ha hb hsid

/-- A word with the op code of CHECKSUM other than the fixed word has a field that is not 0, so it is reserved
(30_encoding.md R64). -/
theorem reserved_of_checksum_op {n : Nat} {w : Word} (hop : w.extractLsb' 0 8 = 0x04) (hw : w ≠ 0x00000004) :
    Reserved n w := by
  have hfield : w.extractLsb' 8 8 ≠ 0 ∨ w.extractLsb' 16 8 ≠ 0 ∨ w.extractLsb' 24 8 ≠ 0 := by
    by_contra! hzero
    obtain ⟨ha, hb, hsid⟩ := hzero
    refine hw ?_
    rw [← requestWord_of_fields w, hop, ha, hb, hsid]
    rfl
  exact .inr (.inr (.inr (.inr (.inl ⟨hop, hfield⟩))))

theorem xorReduce_replicate_even (k : Nat) (v : Byte) : xorReduce (List.replicate (k + k) v) = 0x00 := by
  rw [List.replicate_add, xorReduce_append_list]
  exact BitVec.xor_self

/-- A byte that appears an even number of times contributes nothing: its occurrences, put together, cancel. -/
theorem xorReduce_filter_of_even_count {q : List Byte} {v : Byte} (h : q.count v % 2 = 0) :
    xorReduce q = xorReduce (q.filter fun x => x != v) := by
  obtain ⟨k, hk⟩ := Nat.even_iff.2 h
  have hperm : (List.replicate (k + k) v ++ q.filter fun x => x != v).Perm q := by
    rw [← hk, ← List.filter_beq]
    exact List.filter_append_perm (· == v) q
  rw [← xorReduce_eq_of_perm hperm, xorReduce_append_list, xorReduce_replicate_even]
  exact BitVec.zero_xor

/-- Settles O15: the whole next state is that of `respond`; the word is the one request of its op code that is not reserved;
the corner cases are facts of the fold. -/
theorem checksumOperation : Obligations.ChecksumOperation := by
  refine ⟨fun _ _ => rfl, decode_checksum_word, fun n w q o hop hw => ?_, xorReduce_nil, fun b => ?_,
    fun _ _ h => xorReduce_filter_of_even_count h, fun _ _ h => xorReduce_eq_of_perm h,
    fun c p => xorReduce_frameWith (lengthByte p) c p, by decide⟩
  · exact decode_error_of_reserved (r := ⟨w, q, o⟩) (reserved_of_checksum_op hop hw)
  · rw [xorReduce_cons, xorReduce_nil]
    exact BitVec.xor_zero

/-! The laws. -/

/-- Replacing one byte changes the checksum by the difference of the two. -/
theorem xorReduce_set {q : List Byte} {i : Nat} {a : Byte} (h : q[i]? = some a) (v : Byte) :
    xorReduce (q.set i v) = xorReduce q ^^^ (a ^^^ v) := by
  induction q generalizing i with
  | nil => cases h
  | cons b q ih =>
    cases i with
    | zero =>
      cases h
      rw [List.set_cons_zero, xorReduce_cons, xorReduce_cons, BitVec.xor_comm a, BitVec.xor_assoc, xor_cancel_left,
        BitVec.xor_comm]
    | succ i => rw [List.set_cons_succ, xorReduce_cons, ih h, xorReduce_cons, BitVec.xor_assoc]

/-- R85 item 4: changing a byte by `e` changes the checksum by `e`. -/
theorem xorReduce_set_xor {q : List Byte} {i : Nat} {a : Byte} (h : q[i]? = some a) (e : Byte) :
    xorReduce (q.set i (a ^^^ e)) = xorReduce q ^^^ e := by rw [xorReduce_set h, xor_cancel_left]

/-- One corrupted byte always shows. -/
theorem xorReduce_set_xor_ne {q : List Byte} {i : Nat} {a e : Byte} (h : q[i]? = some a) (he : e ≠ 0) :
    xorReduce (q.set i (a ^^^ e)) ≠ xorReduce q := by
  rw [xorReduce_set_xor h]
  exact fun heq => he (xor_left_eq_self_iff.1 heq)

/-- R85 item 5: equal corruptions of two bytes cancel. -/
theorem xorReduce_set_xor_twice {q : List Byte} {i j : Nat} {a a' : Byte} (e : Byte) (hij : i ≠ j) (hi : q[i]? = some a)
    (hj : q[j]? = some a') : xorReduce ((q.set i (a ^^^ e)).set j (a' ^^^ e)) = xorReduce q := by
  have hj' : (q.set i (a ^^^ e))[j]? = some a' := (List.getElem?_set_ne hij).trans hj
  rw [xorReduce_set_xor hj', xorReduce_set_xor hi, xor_cancel_right]

/-- R85 item 6: exchanging two bytes keeps the checksum. After the first write, place `j` holds `a'` also when it is
place `i`. -/
theorem xorReduce_exchange {q : List Byte} {i j : Nat} {a a' : Byte} (hi : q[i]? = some a) (hj : q[j]? = some a') :
    xorReduce ((q.set i a').set j a) = xorReduce q := by
  have hj' : (q.set i a')[j]? = some a' := by
    obtain ⟨hlt, -⟩ := List.getElem?_eq_some_iff.1 hi
    rw [List.getElem?_set, if_pos hlt, hj, ite_self]
  rw [xorReduce_set hj', xorReduce_set hi, BitVec.xor_comm a', xor_cancel_right]

/-- Settles O16: each law from the change of the checksum under one write; the command and the payload are bytes of the list
the checksum is taken over, from place 2 on. -/
theorem checksumLaws : Obligations.ChecksumLaws :=
  ⟨fun x y z => ⟨BitVec.xor_zero, BitVec.xor_self, BitVec.xor_assoc x y z, BitVec.xor_comm x y⟩,
    fun _ _ h => xorReduce_eq_of_perm h, xorReduce_append_list, fun _ _ _ e h _ => xorReduce_set_xor h e,
    fun c p i _ _ h he => xorReduce_set_xor_ne (q := [0xAF, lengthByte p, c] ++ p) (i := i + 3) h he,
    fun c _ p he => xorReduce_set_xor_ne (q := [0xAF, lengthByte p, c] ++ p) (i := 2) rfl he,
    fun _ _ _ _ _ e hij hi hj => xorReduce_set_xor_twice e hij hi hj, fun _ _ _ _ _ hi hj => xorReduce_exchange hi hj⟩

end Sys2Proof.Proofs
end

section
/-! PROOFS. The two packs: `PACK_FIXED` (41_encoder.md R91, R92), `PACK_VAR` (R94) and its checks (R95, R96), each with its
request words. -/

namespace Sys2Proof.Proofs

open Sys2Proof Sys2Proof.Machine

/-! What a pack does, one equation per outcome. -/

theorem exec_packFixed_of_small {o : OutBuf} (c d : Byte) (s : State) (h : o.cap < 5) :
    exec (.packFixed c d o) s = .refused .packFixedOutTooSmall := if_pos h

theorem exec_packFixed_of_room {o : OutBuf} (c d : Byte) (s : State) (h : 5 ≤ o.cap) :
    exec (.packFixed c d o) s = .next (emitFrame o [0xAF, 0x01, c, d, 0xAF ^^^ 0x01 ^^^ c ^^^ d] s) :=
  if_neg (Nat.not_lt.2 h)

theorem exec_packVar_of_long {p : List Byte} {s : State} (c : Byte) (o : OutBuf) (h : s.maxPayload.val < p.length) :
    exec (.packVar c p o) s = .next (respond (bare .sizeExceeded) s) := if_pos h

theorem exec_packVar_of_small {p : List Byte} {o : OutBuf} {s : State} (c : Byte) (hlen : p.length ≤ s.maxPayload.val)
    (hcap : o.cap < p.length + 4) : exec (.packVar c p o) s = .next (respond (bare .capacityViolation) s) :=
  (if_neg (Nat.not_lt.2 hlen)).trans (if_pos hcap)

theorem exec_packVar_of_room {p : List Byte} {o : OutBuf} {s : State} (c : Byte) (hlen : p.length ≤ s.maxPayload.val)
    (hcap : p.length + 4 ≤ o.cap) : exec (.packVar c p o) s = .next (emitFrame o (frame c p) s) :=
  (if_neg (Nat.not_lt.2 hlen)).trans (if_neg (Nat.not_lt.2 hcap))

/-! Short frames, byte by byte. -/

theorem frame_empty (c : Byte) : frame c [] = [0xAF, 0x00, c, 0xAF ^^^ c] := by
  simp [frame, frameWith, lengthByte, Config.header]

theorem frame_singleton (c d : Byte) : frame c [d] = [0xAF, 0x01, c, d, 0xAF ^^^ 0x01 ^^^ c ^^^ d] := by
  simp [frame, frameWith, lengthByte, Config.header, ← BitVec.xor_assoc]

/-- 41_encoder.md R91: with room for one payload byte, the two packs of one byte into 5 bytes do the same. -/
theorem exec_packFixed_eq_packVar {s : State} (c d : Byte) (base : Nat) (h : 1 ≤ s.maxPayload.val) :
    exec (.packFixed c d ⟨base, 5⟩) s = exec (.packVar c [d] ⟨base, 5⟩) s := by
  rw [exec_packFixed_of_room c d s le_rfl, exec_packVar_of_room (p := [d]) c h le_rfl, frame_singleton]

/-! The request words. -/

/-- The formats of 30_encoding.md R60 leave out a field that is 0. -/
theorem requestWord_zero_sid (b a op : Byte) :
    requestWord 0 b a op = b.zext32 <<< 16 ||| a.zext32 <<< 8 ||| op.zext32 := by
  simp [Laws.requestWord_eq]

theorem requestWord_zero_sid_b (a op : Byte) : requestWord 0 0 a op = a.zext32 <<< 8 ||| op.zext32 := by
  simp [Laws.requestWord_eq]

theorem decode_packFixed_requestWord (n : Nat) (c d : Byte) (q : List Byte) (o : OutBuf) :
    decode n ⟨requestWord 0 d c 0x02, q, o⟩ = .ok (.packFixed c d o) := by
  obtain ⟨hop, ha, hb, hsid⟩ := requestWord_fields 0 d c 0x02
  have h := decode_packFixed (n := n) (r := ⟨requestWord 0 d c 0x02, q, o⟩) hop hsid
  rwa [Request.a, Request.b, ha, hb] at h

theorem decode_packVar_requestWord (n : Nat) (c : Byte) (p : List Byte) (o : OutBuf) :
    decode n ⟨requestWord 0 0 c 0x03, p, o⟩ = .ok (.packVar c p o) := by
  obtain ⟨hop, ha, hb, hsid⟩ := requestWord_fields 0 0 c 0x03
  have h := decode_packVar (n := n) (r := ⟨requestWord 0 0 c 0x03, p, o⟩) hop hb hsid
  rwa [Request.a, ha] at h

theorem reserved_packFixed_requestWord (n : Nat) (c d : Byte) {sid : Byte} (h : sid ≠ 0) :
    Reserved n (requestWord sid d c 0x02) := by
  obtain ⟨hop, -, -, hsid⟩ := requestWord_fields sid d c 0x02
  exact .inr (.inr (.inl ⟨hop, hsid.trans_ne h⟩))

theorem reserved_packVar_requestWord (n : Nat) (c : Byte) {b sid : Byte} (h : b ≠ 0 ∨ sid ≠ 0) :
    Reserved n (requestWord sid b c 0x03) := by
  obtain ⟨hop, -, hb, hsid⟩ := requestWord_fields sid b c 0x03
  exact .inr (.inr (.inr (.inl ⟨hop, h.imp hb.trans_ne hsid.trans_ne⟩)))

/-- Settles O18: the whole next state is that of `emitFrame`; the word has the fields of PACK_FIXED, and with another `sid` it
is reserved; the checksum of the frame `PACK_VAR` makes of the byte `d` is the one PACK_FIXED writes out. -/
theorem packFixedOperation : Obligations.PackFixedOperation := by
  refine ⟨fun c d o s h => exec_packFixed_of_room c d s h, fun n c d sid q o => ⟨?_, fun h => ?_⟩, fun _ _ => rfl,
    fun c d base _ h => exec_packFixed_eq_packVar c d base h, rfl⟩
  · have hword := requestWord_zero_sid d c 0x02
    exact hword ▸ decode_packFixed_requestWord n c d q o
  · have hword := Laws.requestWord_eq sid d c 0x02
    exact hword ▸ decode_error_of_reserved (r := ⟨_, q, o⟩) (reserved_packFixed_requestWord n c d h)

/-- Settles O19: the size of the buffer is the first thing PACK_FIXED looks at. -/
theorem packFixedIntoSmallBufferIsRefused : Obligations.PackFixedIntoSmallBufferIsRefused :=
  fun c d _ s h => exec_packFixed_of_small c d s h

/-- Settles O20: each outcome by its equation; the word has the fields of PACK_VAR, and with another `b` or `sid` it is
reserved; the corner cases are facts of `frame`. -/
theorem packVarOperation : Obligations.PackVarOperation := by
  refine ⟨fun c p o s hlen hcap => ?_, fun c p o s h => exec_packVar_of_long c o h,
    fun c p o s hlen hcap => exec_packVar_of_small c hlen hcap, fun n b c sid p o => ⟨?_, fun h => ?_⟩,
    frame_empty, fun c p h => by rw [frame_length, h], rfl⟩
  · rw [exec_packVar_of_room c hlen hcap, emitFrame, frame_length]
    rfl
  · have hword := requestWord_zero_sid_b c 0x03
    exact hword ▸ decode_packVar_requestWord n c p o
  · have hword := Laws.requestWord_eq sid b c 0x03
    exact hword ▸ decode_error_of_reserved (r := ⟨_, p, o⟩) (reserved_packVar_requestWord n c h)

/-- Settles O21: the three outcomes exclude each other and cover every length and capacity, so each kind names its own. -/
theorem packVarChecks : Obligations.PackVarChecks := by
  refine ⟨rfl, rfl, fun c p o s => ?_⟩
  by_cases hlong : s.maxPayload.val < p.length
  · refine ⟨_, _, exec_packVar_of_long c o hlong, rfl, ?_⟩
    simp [bare, hlong]
  have hlen := Nat.le_of_not_lt hlong
  by_cases hsmall : o.cap < p.length + 4
  · refine ⟨_, _, exec_packVar_of_small c hlen hsmall, rfl, ?_⟩
    simp [bare, hlen, hsmall]
  · have hroom := Nat.le_of_not_lt hsmall
    refine ⟨_, _, exec_packVar_of_room c hlen hroom, rfl, ?_⟩
    simp [okResponse, hlen, hroom]

end Sys2Proof.Proofs
end

section
/-! PROOFS. The parser's transition table (42_parser.md R107 to R117), row by row: the transition of each row by its
equation, and the next state `FEED` gives on a live session. -/

namespace Sys2Proof.Proofs

open Sys2Proof Sys2Proof.Machine

/-! The rows that do not touch `BUF`. -/

section
variable {mp : Fin 256} {free : Nat → Byte} {b : Byte} {x : Session}

theorem feedStep_header (hs : x.state = .waitHeader) :
    feedStep mp free 0xAF x = .ok ({ x with writeIndex := 0, state := .readLength }, noEvent) := by
  rw [feedStep, hs]
  rfl

theorem feedStep_noise (hs : x.state = .waitHeader) (hb : b ≠ 0xAF) : feedStep mp free b x = .ok (x, noEvent) := by
  simp only [feedStep, hs]
  exact congrArg Except.ok (if_neg hb)

theorem feedStep_lengthAbove (hs : x.state = .readLength) (hb : mp.val < b.toNat) :
    feedStep mp free b x = .ok ({ x with state := .waitHeader }, noEvent) := by
  simp only [feedStep, hs]
  rw [readLengthStep, if_neg (Nat.not_le.2 hb)]

theorem feedStep_lengthWithin (hs : x.state = .readLength) (hb : b.toNat ≤ mp.val) :
    feedStep mp free b x = .ok ({ x with pendingLength := b, writeIndex := 0, state := .readCommand }, noEvent) := by
  simp only [feedStep, hs]
  rw [readLengthStep, if_pos hb]

theorem feedStep_command (hs : x.state = .readCommand) :
    feedStep mp free b x =
      .ok ({ x with pendingCommand := b, state := if x.pendingLength = 0 then .readChecksum else .readPayload },
        noEvent) := by
  simp only [feedStep, hs]
  rfl

end

/-- Settles O25, by the header row. -/
theorem headerByteStartsAFrame : Obligations.HeaderByteStartsAFrame :=
  fun _ _ _ hl hs => exec_feed_ok hl (feedStep_header hs)

/-- Settles O26: the row writes back the session it found. -/
theorem otherByteIsDiscarded : Obligations.OtherByteIsDiscarded := by
  intro s sid b sl hl hs hb
  rw [exec_feed_ok hl (feedStep_noise hs hb), setSession_self (liveSlot?_eq_some.1 hl).1]
  rfl

/-- Settles O27, by the row of a length above the bound; a byte is at most 255. -/
theorem lengthAboveBoundAborts : Obligations.LengthAboveBoundAborts :=
  ⟨fun _ _ _ _ hl hs hb => exec_feed_ok hl (feedStep_lengthAbove hs hb), fun s b hmax => by
    have hbyte := b.isLt
    omega⟩

/-- Settles O28, by the row of a length within the bound. -/
theorem lengthWithinBoundIsCaptured : Obligations.LengthWithinBoundIsCaptured :=
  fun _ _ _ _ hl hs hb => exec_feed_ok hl (feedStep_lengthWithin hs hb)

/-- Settles O29: the command row, with its choice of the next state decided by the pending length. -/
theorem commandByteIsCaptured : Obligations.CommandByteIsCaptured := by
  intro s sid b sl hl hs
  have hrow := exec_feed_ok hl (feedStep_command (b := b) hs)
  exact ⟨fun h0 => by rw [hrow, if_pos h0]; rfl, fun h0 => by rw [hrow, if_neg h0]; rfl⟩

/-! The payload row. -/

theorem statePromise_readPayload {x : Session} (hs : x.state = .readPayload) :
    StatePromise x ↔ x.writeIndex.toNat < x.pendingLength.toNat ∧ Written x.buf x.writeIndex.toNat := by
  simp [StatePromise, hs]

/-- The write of a payload byte is in bounds (10_state.md R28). -/
theorem writeIndex_lt_of_sessionInv {mp : Fin 256} {x : Session} (hx : SessionInv mp x) (hs : x.state = .readPayload) :
    x.writeIndex.toNat < mp.val := by
  obtain ⟨hlen, -, hpromise, -⟩ := hx
  exact Nat.lt_of_lt_of_le ((statePromise_readPayload hs).1 hpromise).1 hlen

/-- Settles O30: the payload row, read after write at the written index and at the others, and the bound of the index. -/
theorem payloadByteIsStored : Obligations.PayloadByteIsStored := by
  intro s sid b sl hl hs wi
  refine ⟨fun hlt => ⟨?_, exec_feed_ok hl (feedStep_readPayload hs hlt), memRead_memWrite_same _ _ _,
    fun k hk => memRead_memWrite_other _ b hk⟩, fun hx => writeIndex_lt_of_sessionInv hx hs⟩
  have hmax := s.maxPayload.isLt
  bv_omega

/-! The checksum row. -/

section
variable {sid b : Byte} {s : State} {sl : Slot}

/-- The checksum byte is compared with the checksum of the pending pair and payload. -/
theorem exec_feed_readChecksum (hl : liveSlot? sid s = some sl) (hs : sl.session.state = .readChecksum)
    (hlen : sl.session.pendingLength.toNat ≤ s.maxPayload.val) {y : Session} {r : Response}
    (h : checksumOutcome (expectedChecksum sl.session (pendingPayload sid sl)) (pendingPayload sid sl) b sl.session =
      (y, r)) :
    exec (.feed sid b) s = .next (respond r (setSession sid y s)) :=
  exec_feed_ok hl (by rw [feedStep_readChecksum hs hlen]; exact congrArg Except.ok h)

theorem exec_feed_match (hl : liveSlot? sid s = some sl) (hs : sl.session.state = .readChecksum)
    (hlen : sl.session.pendingLength.toNat ≤ s.maxPayload.val)
    (hb : b = expectedChecksum sl.session (pendingPayload sid sl)) :
    exec (.feed sid b) s =
      .next (respond (frameReady sl.session.pendingLength sl.session.pendingCommand (pendingPayload sid sl))
        (setSession sid { sl.session with connected := true, state := .waitHeader } s)) :=
  exec_feed_readChecksum hl hs hlen (checksumOutcome_match _ hb)

theorem exec_feed_mismatch (hl : liveSlot? sid s = some sl) (hs : sl.session.state = .readChecksum)
    (hlen : sl.session.pendingLength.toNat ≤ s.maxPayload.val)
    (hb : b ≠ expectedChecksum sl.session (pendingPayload sid sl)) :
    exec (.feed sid b) s =
      .next (respond (bare .checksumError) (setSession sid { sl.session with
        connected := false
        checksumErrorCount := sl.session.checksumErrorCount + 1
        state := .waitHeader } s)) :=
  exec_feed_readChecksum hl hs hlen (checksumOutcome_mismatch _ hb)

end

/-- Settles O31: where `BUF` holds `p` the pending payload is `p`, and the byte matches its checksum or does not. -/
theorem checksumByteIsComparedWithRecomputed : Obligations.ChecksumByteIsComparedWithRecomputed := by
  intro s sid b sl p hl hs hlen hp hbuf
  have hpending : pendingPayload sid sl = p := by rw [pendingPayload, ← hp, bufBytes_of_written hbuf]
  by_cases hb : b = expectedChecksum sl.session (pendingPayload sid sl)
  · refine ⟨_, _, _, exec_feed_match hl hs hlen hb, rfl, liveSlot?_setSession hl, rfl, fun _ => ⟨rfl, hpending⟩,
      fun hne => absurd hb ?_⟩
    rw [hpending]
    exact hne
  · refine ⟨_, _, _, exec_feed_mismatch hl hs hlen hb, rfl, liveSlot?_setSession hl, rfl, fun heq => absurd ?_ hb,
      fun _ => rfl⟩
    rw [hpending]
    exact heq

/-- Settles O32, by the checksum row with the matching byte. -/
theorem checksumMatchEmitsTheFrame : Obligations.ChecksumMatchEmitsTheFrame :=
  fun _ _ _ hl hs hlen => exec_feed_match hl hs hlen rfl

/-- Settles O33, by the checksum row with any other byte. -/
theorem checksumMismatchIsCounted : Obligations.ChecksumMismatchIsCounted :=
  fun _ _ _ _ hl hs hlen hb => exec_feed_mismatch hl hs hlen hb

end Sys2Proof.Proofs
end

section
/-! PROOFS. One whole frame (42_parser.md R119 to R124): the bytes after an accepted length are command, payload and checksum
whatever they are, so a frame is received by running the rows of the table once over its bytes. -/

namespace Sys2Proof.Proofs

open Sys2Proof Sys2Proof.Machine

/-! The bytes of a frame, in the parser. -/

section
variable {mp : Fin 256} {free : Nat → Byte}

/-- Payload bytes are stored one after another. The state says whether one is still missing, so the empty payload is no case
of its own. -/
theorem feedList_payload (p : List Byte) {x : Session}
    (hs : x.state = if x.writeIndex = x.pendingLength then .readChecksum else .readPayload)
    (hlen : x.writeIndex.toNat + p.length = x.pendingLength.toNat) (hmax : x.pendingLength.toNat ≤ mp.val) :
    feedList mp free p x =
      .ok ({ x with state := .readChecksum, writeIndex := x.pendingLength,
                    buf := memWriteBytes x.buf x.writeIndex.toNat p }, List.replicate p.length noEvent) := by
  induction p generalizing x with
  | nil =>
    have hfull : x.writeIndex = x.pendingLength := BitVec.eq_of_toNat_eq hlen
    rw [if_pos hfull] at hs
    obtain ⟨st, len, _, wi⟩ := x
    obtain rfl : st = .readChecksum := hs
    obtain rfl : wi = len := hfull
    rfl
  | cons b p ih =>
    rw [List.length_cons] at hlen
    have hlt : x.writeIndex.toNat < x.pendingLength.toNat := by omega
    have hmissing : x.writeIndex ≠ x.pendingLength := fun e => absurd (congrArg BitVec.toNat e) (Nat.ne_of_lt hlt)
    have hsucc : (x.writeIndex + 1).toNat = x.writeIndex.toNat + 1 := by bv_omega
    have hlen' : (x.writeIndex + 1).toNat + p.length = x.pendingLength.toNat := by omega
    rw [if_neg hmissing] at hs
    have hrest := ih (x := { x with
      buf := memWrite x.buf x.writeIndex.toNat b, writeIndex := x.writeIndex + 1,
      state := if x.writeIndex + 1 = x.pendingLength then .readChecksum else .readPayload })
      rfl hlen' hmax
    rw [hsucc] at hrest
    exact feedList_cons (feedStep_readPayload hs (Nat.lt_of_lt_of_le hlt hmax)) hrest

variable {l c : Byte} {p : List Byte} {x : Session}

/-- A frame up to its checksum byte: every register but the outcome's is as `received` says. -/
theorem feedList_to_checksum (hs : x.state = .waitHeader) (hl : l.toNat ≤ mp.val) (hp : p.length = l.toNat) :
    feedList mp free ([0xAF, l, c] ++ p) x =
      .ok ({ received x l c p with state := .readChecksum }, List.replicate (l.toNat + 3) noEvent) := by
  have hpayload := feedList_payload (free := free) p (mp := mp) (x := { x with
    writeIndex := 0, pendingLength := l, pendingCommand := c, state := if l = 0 then .readChecksum else .readPayload })
    (by simp only [eq_comm]) (by simpa using hp) hl
  rw [hp] at hpayload
  exact feedList_cons (feedStep_header hs) (feedList_cons (feedStep_lengthWithin rfl hl)
    (feedList_cons (feedStep_command rfl) hpayload))

/-- A whole frame: the checksum byte is compared with the checksum of the bytes before it. -/
theorem feedList_frame (k : Byte) (hs : x.state = .waitHeader) (hl : l.toNat ≤ mp.val) (hp : p.length = l.toNat)
    {y : Session} {r : Response}
    (h : checksumOutcome (xorReduce ([0xAF, l, c] ++ p)) p k { received x l c p with state := .readChecksum } = (y, r)) :
    feedList mp free ([0xAF, l, c] ++ p ++ [k]) x = .ok (y, List.replicate (l.toNat + 3) noEvent ++ [r]) := by
  refine feedList_append (feedList_to_checksum hs hl hp) (feedList_cons ?_ rfl)
  rw [feedStep_readChecksum rfl hl]
  have hbuf : bufBytes free (memWriteBytes x.buf 0 p) l.toNat = p := hp ▸ bufBytes_memWriteBytes free x.buf p
  simp only [received, hbuf]
  exact congrArg Except.ok h

end

/-! The bytes of a frame, fed to a live session in `WaitHeader`. -/

section
variable {s : State} {sid l c k : Byte} {p : List Byte} {sl : Slot}

theorem runFeeds_frame_match (hlive : liveSlot? sid s = some sl) (hs : sl.session.state = .waitHeader)
    (hl : l.toNat ≤ s.maxPayload.val) (hp : p.length = l.toNat) (hk : k = xorReduce ([0xAF, l, c] ++ p)) :
    runFeeds sid ([0xAF, l, c] ++ p ++ [k]) s =
      .next (afterFeeds sid { received sl.session l c p with connected := true }
        (List.replicate (l.toNat + 3) noEvent ++ [frameReady l c p]) s) :=
  runFeeds_of_feedList hlive (feedList_frame k hs hl hp (checksumOutcome_match _ hk))

theorem runFeeds_frame_mismatch (hlive : liveSlot? sid s = some sl) (hs : sl.session.state = .waitHeader)
    (hl : l.toNat ≤ s.maxPayload.val) (hp : p.length = l.toNat) (hk : k ≠ xorReduce ([0xAF, l, c] ++ p)) :
    runFeeds sid ([0xAF, l, c] ++ p ++ [k]) s =
      .next (afterFeeds sid
        { received sl.session l c p with
          connected := false, checksumErrorCount := sl.session.checksumErrorCount + 1 }
        (List.replicate (l.toNat + 3) noEvent ++ [bare .checksumError]) s) :=
  runFeeds_of_feedList hlive (feedList_frame k hs hl hp (checksumOutcome_mismatch _ hk))

end

theorem afterFeeds_responses (sid : Byte) (y : Session) (rs : List Response) (s : State) :
    (afterFeeds sid y rs s).responses = s.responses ++ rs := rfl

/-- Settles O38: only a byte at the checksum is answered with an event, and a frame's bytes run to it. -/
theorem anyBytesAfterALengthAreOneFrame : Obligations.AnyBytesAfterALengthAreOneFrame := by
  refine ⟨fun s t sid b sl r hlive hfeed hresp hr => ?_, fun s sid l c k p sl hlive hs hl hp => ?_⟩
  · obtain ⟨y, r', hstep, rfl⟩ := exec_feed_next hlive hfeed
    obtain rfl : r' = r := by simpa using hresp
    rcases feedStep_response_cases hstep with ⟨-, rfl⟩ | ⟨hchk, -⟩ | ⟨hchk, -⟩
    · exact absurd rfl hr
    · exact hchk
    · exact hchk
  · by_cases hk : k = xorReduce ([0xAF, l, c] ++ p)
    · refine ⟨_, runFeeds_frame_match hlive hs hl hp hk, fun _ => ⟨?_, liveSlot?_afterFeeds hlive⟩,
        fun hne => absurd hk hne⟩
      rw [afterFeeds_responses, ← List.append_assoc]
      rfl
    · refine ⟨_, runFeeds_frame_mismatch hlive hs hl hp hk, fun heq => absurd heq hk,
        fun _ => ⟨?_, liveSlot?_afterFeeds hlive⟩⟩
      rw [afterFeeds_responses, ← List.append_assoc]
      rfl

/-! Encoded frames. -/

/-- The answered word shows the length byte of an encoded frame as the number of payload bytes. -/
theorem setWidth_eq_ofNat_length {l : Byte} {p : List Byte} (h : l.toNat = p.length) :
    l.setWidth 32 = BitVec.ofNat 32 p.length := by
  rw [← h]
  exact (BitVec.ofNat_toNat 32 l).symm

/-- A frame the encoder answered in some state decodes in every state with room for its payload. -/
theorem runFeeds_encoded {s t : State} {sid c : Byte} {p f : List Byte} {sl : Slot} (hlive : liveSlot? sid t = some sl)
    (hs : sl.session.state = .waitHeader) (hf : EncoderEmits s c p f) (hlen : p.length ≤ t.maxPayload.val) :
    ∃ l : Byte, l.toNat = p.length ∧
      runFeeds sid f t =
        .next (afterFeeds sid { received sl.session l c p with connected := true }
          (List.replicate (p.length + 3) ⟨.ok, 0, []⟩ ++
            [⟨.frameReady, (BitVec.ofNat 32 p.length) <<< 8 ||| c.setWidth 32, p⟩]) t) := by
  obtain ⟨l, rfl, hl, -⟩ := encoderEmits_eq_frameWith hf
  refine ⟨l, hl, ?_⟩
  rw [← setWidth_eq_ofNat_length hl, ← hl]
  exact runFeeds_frame_match hlive hs (hl.trans_le hlen) hl.symm rfl

/-- Settles O40: the encoder's frame has the checksum the parser recomputes. -/
theorem encodedFrameDecodes : Obligations.EncodedFrameDecodes := by
  intro s sid c p f sl hf hlen hlive hs
  obtain ⟨l, hl, hrun⟩ := runFeeds_encoded hlive hs hf hlen
  exact ⟨_, _, hrun, (List.append_assoc _ _ _).symm, liveSlot?_afterFeeds hlive, rfl, rfl, hl, rfl, rfl⟩

/-- Settles O41: another last byte is not the checksum, and the mismatch leaves the session in `WaitHeader`, where the next
frame decodes. -/
theorem corruptedChecksumIsReportedOnce : Obligations.CorruptedChecksumIsReportedOnce := by
  intro s sid c c₂ k p p₂ f f₂ sl hf hlen hk hf₂ hlen₂ hlive hs
  obtain ⟨l, rfl, hl, -⟩ := encoderEmits_eq_frameWith hf
  have hne : k ≠ xorReduce ([0xAF, l, c] ++ p) := fun e => hk (by rw [frameWith, List.getLast?_concat, e]; rfl)
  have hrun := runFeeds_frame_mismatch hlive hs (hl.trans_le hlen) hl.symm hne
  have hlive' := liveSlot?_afterFeeds (rs := List.replicate (l.toNat + 3) noEvent ++ [bare .checksumError])
    (y := { received sl.session l c p with
      connected := false, checksumErrorCount := sl.session.checksumErrorCount + 1 }) hlive
  obtain ⟨l₂, -, hrun₂⟩ := runFeeds_encoded hlive' rfl hf₂ hlen₂
  refine ⟨_, _, _, ?_, ?_, hlive', rfl, rfl, rfl, hrun₂, (List.append_assoc _ _ _).symm⟩
  · rw [frameWith, List.dropLast_concat]
    exact hrun
  · rw [afterFeeds_responses, hl, ← List.append_assoc]
    rfl

/-! Noise. -/

/-- After a noise byte 0xAF the frame's own header is the length byte. -/
theorem swallowed_frame {f more q : List Byte} {c' k : Byte} (hf : f[0]? = some 0xAF)
    (h : (f.tail ++ more).take 177 = c' :: q ++ [k]) :
    (0xAF :: f ++ more).take 179 = [0xAF, 0xAF, c'] ++ q ++ [k] := by
  cases f with
  | nil => cases hf
  | cons b f =>
    cases hf
    exact congrArg (fun bs => 0xAF :: 0xAF :: bs) h

/-- Settles O42: the real header is the length byte 175 of the frame that the noise byte starts. -/
theorem falseHeaderSwallowsTheRealFrame : Obligations.FalseHeaderSwallowsTheRealFrame := by
  intro s sid c c' k p f more q sl hf hmax hlive hs hq htake
  obtain ⟨l, rfl, -⟩ := encoderEmits_eq_frameWith hf
  rw [swallowed_frame (frameWith_fields l c p).1 htake]
  by_cases hk : k = xorReduce ([0xAF, 0xAF, c'] ++ q)
  · exact ⟨_, _, _, runFeeds_frame_match hlive hs hmax hq hk, (List.append_assoc _ _ _).symm, liveSlot?_afterFeeds hlive,
      rfl, rfl, rfl, fun _ => ⟨rfl, rfl⟩, fun hne => absurd hk hne⟩
  · exact ⟨_, _, _, runFeeds_frame_mismatch hlive hs hmax hq hk, (List.append_assoc _ _ _).symm,
      liveSlot?_afterFeeds hlive, rfl, rfl, rfl, fun heq => absurd heq hk, fun _ => rfl⟩

theorem feedList_noise {mp : Fin 256} {free : Nat → Byte} {bs : List Byte} {x : Session} (hs : x.state = .waitHeader)
    (hbs : 0xAF ∉ bs) : feedList mp free bs x = .ok (x, List.replicate bs.length noEvent) := by
  induction bs with
  | nil => rfl
  | cons b bs ih =>
    exact feedList_cons (feedStep_noise hs (List.ne_of_not_mem_cons hbs).symm) (ih (List.not_mem_of_not_mem_cons hbs))

/-- Settles O39: noise leaves the session as it was, and the checksum row has two outcomes, both of them events. -/
theorem noiseNeverEmitsAnEvent : Obligations.NoiseNeverEmitsAnEvent := by
  refine ⟨fun s sid sl bs hlive hs hbs => ?_, fun s sid b sl hlive hs hlen => ?_⟩
  · rw [runFeeds_of_feedList hlive (feedList_noise hs hbs), afterFeeds, setSession_self (liveSlot?_eq_some.1 hlive).1]
    rfl
  · by_cases hb : b = expectedChecksum sl.session (pendingPayload sid sl)
    · exact ⟨_, _, exec_feed_match hlive hs hlen hb, rfl, .inl rfl⟩
    · exact ⟨_, _, exec_feed_mismatch hlive hs hlen hb, rfl, .inr rfl⟩

end Sys2Proof.Proofs
end

section
/-! PROOFS. The output for a byte stream depends on the stream and the session alone (42_parser.md R125), and `connected` and
the error counter follow the checksum outcomes in it (R126). -/

namespace Sys2Proof.Proofs

open Sys2Proof Sys2Proof.Machine

/-! Two states with one slot for the session. -/

theorem applyEffect_slot_congr {s s' : State} {j : Nat} (r : Response) (g : Slot → Slot)
    (h : s.slots[j]? = s'.slots[j]?) :
    (applyEffect r (some j) g none s).slots[j]? = (applyEffect r (some j) g none s').slots[j]? := by
  simp only [applyEffect, List.getElem?_modify, h]

/-- Two states that agree on `MAX_PAYLOAD` and on the session's slot still agree after every byte, and both answer it
alike. -/
theorem runFeeds_congr {sid : Byte} (bs : List Byte) {s s' t : State} (hmax : s.maxPayload = s'.maxPayload)
    (hslot : s.slots[sid.toNat]? = s'.slots[sid.toNat]?) (h : runFeeds sid bs s = .next t) :
    ∃ t' rs, runFeeds sid bs s' = .next t' ∧ t.responses = s.responses ++ rs ∧ t'.responses = s'.responses ++ rs ∧
      t'.slots[sid.toNat]? = t.slots[sid.toNat]? := by
  induction bs generalizing s s' with
  | nil =>
    cases h
    exact ⟨s', [], rfl, (List.append_nil _).symm, (List.append_nil _).symm, hslot.symm⟩
  | cons b bs ih =>
    obtain ⟨u, hfeed, hrest⟩ := runInstrs_cons_inv h
    obtain ⟨r, g, heffect⟩ := exec_session_effect (sid := sid) rfl hfeed
    obtain rfl := Host.Outcome.next.inj (hfeed.symm.trans (heffect s rfl rfl))
    obtain ⟨t', rs, hrun, hresp, hresp', hslot'⟩ := ih (s := applyEffect r (some sid.toNat) g none s)
      (s' := applyEffect r (some sid.toNat) g none s') hmax (applyEffect_slot_congr r g hslot) hrest
    refine ⟨t', r :: rs, ?_, hresp.trans (List.append_assoc _ _ _), hresp'.trans (List.append_assoc _ _ _), hslot'⟩
    rw [runFeeds_cons_next (heffect s' hmax.symm hslot.symm), hrun]

/-- Settles O43: the two runs answer alike byte by byte; and a stream in two parts is one list of operations. -/
theorem outputDependsOnStreamAndSession : Obligations.OutputDependsOnStreamAndSession := by
  refine ⟨fun sid bs s s' t => runFeeds_congr bs, fun sid bs bs' s t h => ?_⟩
  rw [runFeeds, List.map_append, runInstrs_append h, runFeeds]

/-! The flag and the counter. -/

/-- The connected flag and the error counter of `y` are those of `x` after the outcomes among `rs` (42_parser.md R126). -/
def FollowsOutcomes (x y : Session) (rs : List Response) : Prop :=
  y.connected = lastOutcome x.connected rs ∧
  y.checksumErrorCount = x.checksumErrorCount + BitVec.ofNat 32 (mismatches rs)

theorem followsOutcomes_nil (x : Session) : FollowsOutcomes x x [] := ⟨rfl, (BitVec.add_zero _).symm⟩

theorem FollowsOutcomes.cons {x y z : Session} {r : Response} {rs : List Response} (h : FollowsOutcomes x y [r])
    (h' : FollowsOutcomes y z rs) : FollowsOutcomes x z (r :: rs) := by
  obtain ⟨hconn, hcount⟩ := h
  obtain ⟨hconn', hcount'⟩ := h'
  have hsum : mismatches (r :: rs) = mismatches [r] + mismatches rs := List.countP_append (l₁ := [r])
  refine ⟨by rw [hconn', hconn]; rfl, ?_⟩
  rw [hcount', hcount, hsum, BitVec.ofNat_add, BitVec.add_assoc]

theorem followsOutcomes_noEvent {x y : Session} (hconn : y.connected = x.connected)
    (hcount : y.checksumErrorCount = x.checksumErrorCount) : FollowsOutcomes x y [noEvent] :=
  ⟨hconn, hcount.trans (BitVec.add_zero _).symm⟩

/-- Only the checksum row writes the flag and the counter, and it answers with the outcome it records. -/
theorem feedStep_followsOutcomes {mp : Fin 256} {free : Nat → Byte} {b : Byte} {x y : Session} {r : Response}
    (h : feedStep mp free b x = .ok (y, r)) : FollowsOutcomes x y [r] := by
  rcases feedStep_cases h with ⟨-, -, rfl, rfl⟩ | ⟨-, -, rfl, rfl⟩ | ⟨-, -, rfl, rfl⟩ | ⟨-, -, rfl, rfl⟩ |
    ⟨-, rfl, rfl⟩ | ⟨-, -, rfl, rfl⟩ | ⟨-, -, -, rfl, rfl⟩ | ⟨-, -, -, rfl, rfl⟩
  · exact followsOutcomes_noEvent rfl rfl
  · exact followsOutcomes_noEvent rfl rfl
  · exact followsOutcomes_noEvent rfl rfl
  · exact followsOutcomes_noEvent rfl rfl
  · exact followsOutcomes_noEvent rfl rfl
  · exact followsOutcomes_noEvent rfl rfl
  · exact ⟨rfl, (BitVec.add_zero _).symm⟩
  · exact ⟨rfl, rfl⟩

theorem feedList_followsOutcomes {mp : Fin 256} {free : Nat → Byte} {bs : List Byte} {x y : Session}
    {rs : List Response} (h : feedList mp free bs x = .ok (y, rs)) : FollowsOutcomes x y rs := by
  induction bs generalizing x rs with
  | nil =>
    cases h
    exact followsOutcomes_nil _
  | cons b bs ih =>
    obtain ⟨z, r, rs', hstep, hrest, rfl⟩ := feedList_cons_inv h
    exact (feedStep_followsOutcomes hstep).cons (ih hrest)

/-- Settles O44: each byte moves the flag and the counter by its own response, and a reset session starts at false and 0. -/
theorem connectedAndCounterFollowTheEvents : Obligations.ConnectedAndCounterFollowTheEvents := by
  intro sid bs s t sl hlive hrun
  obtain ⟨y, rs, hlist, rfl⟩ := feedList_of_runFeeds hlive hrun
  obtain ⟨hconn, hcount⟩ := feedList_followsOutcomes hlist
  refine ⟨rs, _, rfl, liveSlot?_afterFeeds hlive, hconn, hcount, fun hreset => ?_⟩
  rw [hreset] at hconn hcount
  refine ⟨hconn, ?_⟩
  have hfrom0 : y.checksumErrorCount = BitVec.ofNat 32 (mismatches rs) := hcount.trans (BitVec.zero_add _)
  rw [hfrom0, BitVec.toNat_ofNat]

end Sys2Proof.Proofs
end

section
/-! PROOFS. The parser is never stuck and is back in `WaitHeader` within MAX_PAYLOAD + 3 bytes (42_parser.md R118): the session
invariant of 10_state.md R28 is kept by every transition, keeps every transition enabled, and bounds the bytes left of the frame
being received. -/

namespace Sys2Proof.Proofs

open Sys2Proof Sys2Proof.Machine

/-! The session invariant, state by state. -/

section
variable {x : Session}

theorem statePromise_waitHeader (hs : x.state = .waitHeader) : StatePromise x := by simp [StatePromise, hs]

theorem statePromise_readLength (hs : x.state = .readLength) : StatePromise x ↔ x.writeIndex = 0 := by
  simp [StatePromise, hs]

theorem statePromise_readCommand (hs : x.state = .readCommand) : StatePromise x ↔ x.writeIndex = 0 := by
  simp [StatePromise, hs]

theorem statePromise_readChecksum (hs : x.state = .readChecksum) :
    StatePromise x ↔ x.writeIndex = x.pendingLength ∧ Written x.buf x.pendingLength.toNat := by simp [StatePromise, hs]

theorem written_zero (m : Memory) : Written m 0 := fun i hi => absurd hi (Nat.not_lt_zero i)

theorem written_memWrite {m : Memory} {n : Nat} (h : Written m n) (b : Byte) : Written (memWrite m n b) (n + 1) := by
  intro i hi
  rw [memRead_memWrite]
  split
  · simp
  · exact h i (by omega)

/-- The command byte of a frame: nothing of the payload is stored yet. -/
theorem statePromise_command (b : Byte) (hs : x.state = .readCommand) (hx : StatePromise x) :
    StatePromise { x with pendingCommand := b,
                          state := if x.pendingLength = 0 then .readChecksum else .readPayload } := by
  have hw := (statePromise_readCommand hs).1 hx
  by_cases h0 : x.pendingLength = 0
  · rw [statePromise_readChecksum (if_pos h0)]
    simpa [hw, h0] using written_zero x.buf
  · have hpos : x.pendingLength.toNat ≠ 0 := byte_toNat_ne h0
    rw [statePromise_readPayload (if_neg h0)]
    simpa [hw, Nat.pos_iff_ne_zero, hpos] using written_zero x.buf

/-- A payload byte is stored behind those received before it. -/
theorem statePromise_payload (b : Byte) (hs : x.state = .readPayload) (hx : StatePromise x) :
    StatePromise { x with
      buf := memWrite x.buf x.writeIndex.toNat b, writeIndex := x.writeIndex + 1,
      state := if x.writeIndex + 1 = x.pendingLength then .readChecksum else .readPayload } := by
  obtain ⟨hlt, hwritten⟩ := (statePromise_readPayload hs).1 hx
  have hsucc : (x.writeIndex + 1).toNat = x.writeIndex.toNat + 1 := by bv_omega
  have hwritten' := written_memWrite hwritten b
  rw [← hsucc] at hwritten'
  by_cases hlast : x.writeIndex + 1 = x.pendingLength
  · rw [hlast] at hwritten'
    exact (statePromise_readChecksum (if_pos hlast)).2 ⟨hlast, hwritten'⟩
  · have hne : (x.writeIndex + 1).toNat ≠ x.pendingLength.toNat := byte_toNat_ne hlast
    exact (statePromise_readPayload (if_neg hlast)).2 ⟨by dsimp only; omega, hwritten'⟩

end

section
variable {mp : Fin 256} {free : Nat → Byte} {b : Byte} {x y : Session} {r : Response}

/-- One transition keeps the session invariant, row by row of 42_parser.md R117. -/
theorem feedStep_keeps_sessionInv (hx : SessionInv mp x) (h : feedStep mp free b x = .ok (y, r)) : SessionInv mp y := by
  obtain ⟨hlen, hindex, hpromise, hbuf⟩ := hx
  rcases feedStep_cases h with ⟨-, -, rfl, -⟩ | ⟨-, -, rfl, -⟩ | ⟨-, hb, rfl, -⟩ | ⟨-, -, rfl, -⟩ | ⟨hs, rfl, -⟩ |
    ⟨hs, hlt, rfl, -⟩ | ⟨-, -, -, rfl, -⟩ | ⟨-, -, -, rfl, -⟩
  · exact ⟨hlen, Nat.zero_le _, (statePromise_readLength rfl).2 rfl, hbuf⟩
  · exact ⟨hlen, hindex, hpromise, hbuf⟩
  · exact ⟨hb, Nat.zero_le _, (statePromise_readCommand rfl).2 rfl, hbuf⟩
  · exact ⟨hlen, hindex, statePromise_waitHeader rfl, hbuf⟩
  · exact ⟨hlen, hindex, statePromise_command b hs hpromise, hbuf⟩
  · refine ⟨hlen, ?_, statePromise_payload b hs hpromise, fun i hi => ?_⟩
    · have hmax := mp.isLt
      bv_omega
    · exact (memRead_memWrite_other _ b (by omega)).trans (hbuf i hi)
  · exact ⟨hlen, hindex, statePromise_waitHeader rfl, hbuf⟩
  · exact ⟨hlen, hindex, statePromise_waitHeader rfl, hbuf⟩

/-- The parser takes every byte (42_parser.md R118): each access to `BUF` is in bounds. -/
theorem feedStep_enabled (b : Byte) (hx : SessionInv mp x) : ∃ y r, feedStep mp free b x = .ok (y, r) := by
  cases hs : x.state with
  | waitHeader => exact ⟨_, _, by rw [feedStep, hs]⟩
  | readLength => exact ⟨_, _, by rw [feedStep, hs]⟩
  | readCommand => exact ⟨_, _, by rw [feedStep, hs]⟩
  | readPayload => exact ⟨_, _, feedStep_readPayload hs (writeIndex_lt_of_sessionInv hx hs)⟩
  | readChecksum => exact ⟨_, _, feedStep_readChecksum hs hx.1⟩

end

theorem sessionInv_of_live {s : State} {sid : Byte} {sl : Slot} (hs : StateInv s) (hl : liveSlot? sid s = some sl) :
    SessionInv s.maxPayload sl.session := by
  obtain ⟨-, -, hsessions⟩ := hs
  obtain ⟨hslot, hreset⟩ := liveSlot?_eq_some.1 hl
  exact hsessions sl (List.mem_of_getElem? hslot) hreset

/-! The bytes left. -/

/-- The most bytes the parser can still take before it is back in `WaitHeader`. -/
def bytesLeft (mp : Fin 256) (x : Session) : Nat :=
  match x.state with
  | .waitHeader => 0
  | .readLength => mp.val + 3
  | .readCommand => x.pendingLength.toNat + 2
  | .readPayload => x.pendingLength.toNat - x.writeIndex.toNat + 1
  | .readChecksum => 1

section
variable {mp : Fin 256} {x : Session}

theorem bytesLeft_waitHeader (hs : x.state = .waitHeader) : bytesLeft mp x = 0 := by simp [bytesLeft, hs]

theorem bytesLeft_readLength (hs : x.state = .readLength) : bytesLeft mp x = mp.val + 3 := by simp [bytesLeft, hs]

theorem bytesLeft_readCommand (hs : x.state = .readCommand) : bytesLeft mp x = x.pendingLength.toNat + 2 := by
  simp [bytesLeft, hs]

theorem bytesLeft_readPayload (hs : x.state = .readPayload) :
    bytesLeft mp x = x.pendingLength.toNat - x.writeIndex.toNat + 1 := by simp [bytesLeft, hs]

theorem bytesLeft_readChecksum (hs : x.state = .readChecksum) : bytesLeft mp x = 1 := by simp [bytesLeft, hs]

theorem bytesLeft_pos (hs : x.state ≠ .waitHeader) : 0 < bytesLeft mp x := by
  cases h : x.state with
  | waitHeader => exact absurd h hs
  | readLength => rw [bytesLeft_readLength h]; omega
  | readCommand => rw [bytesLeft_readCommand h]; omega
  | readPayload => rw [bytesLeft_readPayload h]; omega
  | readChecksum => rw [bytesLeft_readChecksum h]; omega

theorem bytesLeft_le (hx : SessionInv mp x) : bytesLeft mp x ≤ mp.val + 3 := by
  obtain ⟨hlen, -⟩ := hx
  cases h : x.state with
  | waitHeader => rw [bytesLeft_waitHeader h]; omega
  | readLength => rw [bytesLeft_readLength h]
  | readCommand => rw [bytesLeft_readCommand h]; omega
  | readPayload => rw [bytesLeft_readPayload h]; omega
  | readChecksum => rw [bytesLeft_readChecksum h]; omega

/-- While the payload is awaited, each byte of it still missing and the checksum byte are left. -/
theorem bytesLeft_awaiting_payload
    (hs : x.state = if x.writeIndex = x.pendingLength then .readChecksum else .readPayload) :
    bytesLeft mp x = x.pendingLength.toNat - x.writeIndex.toNat + 1 := by
  by_cases hfull : x.writeIndex = x.pendingLength
  · rw [if_pos hfull] at hs
    rw [bytesLeft_readChecksum hs, hfull, Nat.sub_self]
  · rw [if_neg hfull] at hs
    exact bytesLeft_readPayload hs

variable {free : Nat → Byte} {b : Byte} {y : Session} {r : Response}

/-- After the length byte every byte of a frame takes exactly one of the bytes left. -/
theorem feedStep_bytesLeft (hx : SessionInv mp x) (hs : x.state ≠ .waitHeader) (hs' : x.state ≠ .readLength)
    (h : feedStep mp free b x = .ok (y, r)) : y.state ≠ .readLength ∧ bytesLeft mp y + 1 = bytesLeft mp x := by
  obtain ⟨-, -, hpromise, -⟩ := hx
  rcases feedStep_cases h with ⟨hw, -⟩ | ⟨hw, -⟩ | ⟨hl, -⟩ | ⟨hl, -⟩ | ⟨hc, rfl, -⟩ | ⟨hp, -, rfl, -⟩ |
    ⟨hk, -, -, rfl, -⟩ | ⟨hk, -, -, rfl, -⟩
  · exact absurd hw hs
  · exact absurd hw hs
  · exact absurd hl hs'
  · exact absurd hl hs'
  · have hindex := (statePromise_readCommand hc).1 hpromise
    refine ⟨by dsimp only; split <;> simp, ?_⟩
    rw [bytesLeft_readCommand hc, bytesLeft_awaiting_payload (by simp only [hindex, eq_comm])]
    simp [hindex]
  · have hlt := ((statePromise_readPayload hp).1 hpromise).1
    have hsucc : (x.writeIndex + 1).toNat = x.writeIndex.toNat + 1 := by bv_omega
    refine ⟨by dsimp only; split <;> simp, ?_⟩
    rw [bytesLeft_readPayload hp, bytesLeft_awaiting_payload rfl]
    dsimp only
    omega
  · exact ⟨by simp, by rw [bytesLeft_waitHeader rfl, bytesLeft_readChecksum hk]⟩
  · exact ⟨by simp, by rw [bytesLeft_waitHeader rfl, bytesLeft_readChecksum hk]⟩

/-- Every byte of a frame takes at least one of the bytes left; the length byte takes more, unless it is MAX_PAYLOAD. -/
theorem feedStep_bytesLeft_lt (hx : SessionInv mp x) (hs : x.state ≠ .waitHeader)
    (h : feedStep mp free b x = .ok (y, r)) : bytesLeft mp y < bytesLeft mp x := by
  by_cases hl : x.state = .readLength
  · rw [bytesLeft_readLength hl]
    by_cases hb : b.toNat ≤ mp.val
    · cases (feedStep_lengthWithin hl hb).symm.trans h
      rw [bytesLeft_readCommand rfl]
      dsimp only
      omega
    · cases (feedStep_lengthAbove hl (Nat.lt_of_not_le hb)).symm.trans h
      rw [bytesLeft_waitHeader rfl]
      omega
  · have hexact := (feedStep_bytesLeft hx hs hl h).2
    omega

end

/-! Streams. -/

section
variable {mp : Fin 256} {free : Nat → Byte}

/-- A stream with enough bytes passes through `WaitHeader`. -/
theorem feedList_reaches_waitHeader (bs : List Byte) {x : Session} (hx : SessionInv mp x)
    (hbs : bytesLeft mp x ≤ bs.length) :
    ∃ k y rs, k ≤ bs.length ∧ feedList mp free (bs.take k) x = .ok (y, rs) ∧ y.state = .waitHeader := by
  induction bs generalizing x with
  | nil =>
    by_cases hs : x.state = .waitHeader
    · exact ⟨0, x, [], le_rfl, rfl, hs⟩
    · exact absurd (bytesLeft_pos hs) (Nat.not_lt_of_le hbs)
  | cons b bs ih =>
    by_cases hs : x.state = .waitHeader
    · exact ⟨0, x, [], Nat.zero_le _, rfl, hs⟩
    · obtain ⟨z, r, hstep⟩ := feedStep_enabled (free := free) b hx
      have hlt := feedStep_bytesLeft_lt hx hs hstep
      rw [List.length_cons] at hbs
      obtain ⟨k, y, rs, hk, hlist, hy⟩ := ih (feedStep_keeps_sessionInv hx hstep) (by omega)
      exact ⟨k + 1, y, r :: rs, Nat.succ_le_succ hk, feedList_cons hstep hlist, hy⟩

/-- After the length byte, a stream of no more than the bytes left takes one of them with each byte. -/
theorem feedList_bytesLeft {bs : List Byte} {x y : Session} {rs : List Response} (hx : SessionInv mp x)
    (hs : x.state ≠ .readLength) (hbs : bs.length ≤ bytesLeft mp x) (h : feedList mp free bs x = .ok (y, rs)) :
    bytesLeft mp y + bs.length = bytesLeft mp x := by
  induction bs generalizing x rs with
  | nil =>
    cases h
    rfl
  | cons b bs ih =>
    obtain ⟨z, r, rs', hstep, hrest, -⟩ := feedList_cons_inv h
    rw [List.length_cons] at hbs ⊢
    have hw : x.state ≠ .waitHeader := fun e => by rw [bytesLeft_waitHeader e] at hbs; omega
    obtain ⟨hz, hleft⟩ := feedStep_bytesLeft hx hw hs hstep
    have hrest' := ih (feedStep_keeps_sessionInv hx hstep) hz (by omega) hrest
    omega

/-- The worst case: after a length byte of MAX_PAYLOAD the parser is not in `WaitHeader` again before MAX_PAYLOAD + 2 more
bytes. -/
theorem not_waitHeader_of_longest_length {b : Byte} {bs : List Byte} {x y : Session} {rs : List Response}
    (hx : SessionInv mp x) (hs : x.state = .readLength) (hb : b.toNat = mp.val) (hbs : bs.length < mp.val + 2)
    (h : feedList mp free (b :: bs) x = .ok (y, rs)) : y.state ≠ .waitHeader := by
  obtain ⟨z, r, rs', hstep, hrest, -⟩ := feedList_cons_inv h
  obtain ⟨hcommand, hlength⟩ : z.state = .readCommand ∧ z.pendingLength = b := by
    cases (feedStep_lengthWithin hs hb.le).symm.trans hstep
    exact ⟨rfl, rfl⟩
  have hz : bytesLeft mp z = mp.val + 2 := by rw [bytesLeft_readCommand hcommand, hlength, hb]
  have hleft := feedList_bytesLeft (feedStep_keeps_sessionInv hx hstep) (by simp [hcommand]) (by omega) hrest
  intro hw
  rw [bytesLeft_waitHeader hw] at hleft
  omega

end

/-- Settles O37: the invariant keeps every transition enabled; `bytesLeft` is at most MAX_PAYLOAD + 3 and falls with every byte
of a frame, by exactly one with each byte after a length byte of MAX_PAYLOAD. -/
theorem parserReturnsToWaitHeader : Obligations.ParserReturnsToWaitHeader := by
  intro s sid sl hinv hlive
  have hx := sessionInv_of_live hinv hlive
  refine ⟨fun b => ?_, fun _ bs hbs => ?_, fun hs bs t sl' hfirst hbs hrun hlive' => ?_⟩
  · obtain ⟨y, r, hstep⟩ := feedStep_enabled b hx
    exact ⟨_, exec_feed_ok hlive hstep⟩
  · obtain ⟨k, y, rs, hk, hlist, hy⟩ := feedList_reaches_waitHeader bs hx (hbs ▸ bytesLeft_le hx)
    exact ⟨k, _, _, hbs ▸ hk, runFeeds_of_feedList hlive hlist, liveSlot?_afterFeeds hlive, hy⟩
  · cases bs with
    | nil => cases hfirst
    | cons b bs =>
      obtain rfl : b = BitVec.ofNat 8 s.maxPayload.val := Option.some.inj hfirst
      obtain ⟨y, rs, hlist, rfl⟩ := feedList_of_runFeeds hlive hrun
      obtain rfl := Option.some.inj ((liveSlot?_afterFeeds hlive).symm.trans hlive')
      exact not_waitHeader_of_longest_length hx hs (by simp) (Nat.lt_of_succ_lt_succ hbs) hlist

end Sys2Proof.Proofs
end

section
/-! PROOFS. The accessors write nothing, so what one answers hangs on its session's registers alone (43_accessors.md R131), and
`RD_LAST` follows the pending pair through a frame (R135). -/

namespace Sys2Proof.Proofs

open Sys2Proof Sys2Proof.Machine

/-! What an accessor answers. -/

/-- Every accessor reads some word of its session. -/
theorem exec_accessor {i : Instr} {sid : Byte} (hi : IsAccessor i sid) : ∃ w, ∀ s, exec i s = readSession sid w s := by
  rcases hi with rfl | rfl | rfl
  · exact ⟨connectedWord, fun _ => rfl⟩
  · exact ⟨fun x => x.checksumErrorCount, fun _ => rfl⟩
  · exact ⟨fun x => lengthCommandWord x.pendingLength x.pendingCommand, fun _ => rfl⟩

theorem session?_of_isAccessor {i : Instr} {sid : Byte} (hi : IsAccessor i sid) : i.session? = some sid := by
  rcases hi with rfl | rfl | rfl <;> rfl

/-- An accessor answered twice, with the session's slot the same both times, answers the same response. -/
theorem accessor_responses_agree {i : Instr} {sid : Byte} {s t u v : State} {r r' : Response} (hi : IsAccessor i sid)
    (hslot : u.slots[sid.toNat]? = s.slots[sid.toNat]?) (hs : exec i s = .next t) (hr : t.responses = s.responses ++ [r])
    (hu : exec i u = .next v) (hr' : v.responses = u.responses ++ [r']) : r' = r := by
  obtain ⟨w, hw⟩ := exec_accessor hi
  rw [hw] at hs hu
  obtain ⟨a, ha⟩ := readSession_effect hs
  obtain rfl := Host.Outcome.next.inj (hs.symm.trans (ha s rfl))
  obtain rfl := Host.Outcome.next.inj (hu.symm.trans (ha u hslot))
  obtain rfl := List.singleton_inj.1 (List.append_cancel_left hr)
  exact (List.singleton_inj.1 (List.append_cancel_left hr')).symm

/-! What leaves a session's slot alone. -/

/-- Only a `FEED` to a session writes its slot. -/
theorem exec_keeps_slot {i : Instr} {sid : Byte} {s t : State} (hi : ∀ b, i ≠ .feed sid b) (h : exec i s = .next t) :
    t.slots[sid.toNat]? = s.slots[sid.toNat]? := by
  rcases exec_cases h with ⟨sid', b, sl, y, r, rfl, -, -, rfl⟩ | ⟨r, rfl⟩ | ⟨o, f, -, -, rfl⟩
  · have hne : sid ≠ sid' := fun e => hi b (e ▸ rfl)
    exact setSession_slot_other sid' y s (byte_toNat_ne hne)
  · rfl
  · rfl

theorem runInstrs_keeps_slot {is : List Instr} {sid : Byte} {s t : State} (his : ∀ i ∈ is, ∀ b, i ≠ .feed sid b)
    (h : runInstrs is s = .next t) : t.slots[sid.toNat]? = s.slots[sid.toNat]? := by
  induction is generalizing s with
  | nil =>
    cases h
    rfl
  | cons i is ih =>
    obtain ⟨hi, his⟩ := List.forall_mem_cons.1 his
    obtain ⟨u, hexec, hrest⟩ := runInstrs_cons_inv h
    exact (ih his hrest).trans (exec_keeps_slot hi hexec)

theorem isAccessor_ne_feed {i : Instr} {sid : Byte} (hi : IsAccessor i sid) (b : Byte) : i ≠ .feed sid b := by
  rcases hi with rfl | rfl | rfl <;> nofun

/-- Settles O46: an accessor answers a word of its session, which only a `FEED` to that session changes. -/
theorem accessorsAreReadOnly : Obligations.AccessorsAreReadOnly := by
  refine ⟨fun i s sid sl hi hlive => ?_, fun i s t r rest sid resp hi hq hd hstep hresp => ?_,
    fun i is s t u v sid r r' hi his hs hr hrun hu hr' => ?_⟩
  · obtain ⟨w, hw⟩ := exec_accessor hi
    exact ⟨_, _, (hw s).trans (readSession_live hlive), rfl, rfl, rfl⟩
  · obtain ⟨w, hw⟩ := exec_accessor hi
    have hsid := session_lt_of_decode_ok hd (session?_of_isAccessor hi)
    have hserve := serveRequest_of_ok (s := { s with inbox := rest }) hd
    rw [step_request hq, hserve, hw] at hstep
    obtain ⟨a, ha, hkind⟩ := readSession_answers_ok (s := { s with inbox := rest }) hsid hstep
    obtain rfl := List.singleton_inj.1 (List.append_cancel_left (ha.symm.trans hresp))
    exact hkind
  · have hread := exec_keeps_slot (isAccessor_ne_feed hi) hs
    exact accessor_responses_agree hi ((runInstrs_keeps_slot his hrun).trans hread) hs hr hu hr'

/-! The pending pair, as `RD_LAST` reads it. -/

theorem rdLastReads_of_live {sid l c : Byte} {s : State} {sl : Slot} (hlive : liveSlot? sid s = some sl)
    (hl : sl.session.pendingLength = l) (hc : sl.session.pendingCommand = c) :
    RdLastReads sid s (l.setWidth 32 <<< 8 ||| c.setWidth 32) := by
  subst hl hc
  exact readSession_live (w := fun x => lengthCommandWord x.pendingLength x.pendingCommand) hlive

/-- After a byte stream `RD_LAST` reads the pair with which the parser ends it. -/
theorem rdLastReads_of_feedList {sid l c : Byte} {bs : List Byte} {s t : State} {sl : Slot} {y : Session}
    {rs : List Response} (hlive : liveSlot? sid s = some sl)
    (hlist : feedList s.maxPayload (freeBuf sid sl) bs sl.session = .ok (y, rs)) (hl : y.pendingLength = l)
    (hc : y.pendingCommand = c) (hrun : runFeeds sid bs s = .next t) :
    RdLastReads sid t (l.setWidth 32 <<< 8 ||| c.setWidth 32) := by
  rw [runFeeds_of_feedList hlive hlist] at hrun
  cases hrun
  exact rdLastReads_of_live (liveSlot?_afterFeeds hlive) hl hc

/-! From reset, before any accepted length byte. -/

/-- While the parser looks for a header or a length, the pending pair is the one of reset (43_accessors.md R135). -/
def PairStillReset (x : Session) : Prop :=
  x.state = .waitHeader ∨ x.state = .readLength → x.pendingLength = 0 ∧ x.pendingCommand = 0

theorem pairStillReset_of_state {x : Session} (hs : x.state ≠ .waitHeader) (hs' : x.state ≠ .readLength) :
    PairStillReset x := fun h => absurd h (not_or.2 ⟨hs, hs'⟩)

theorem pairStillReset_of_afterCommand {x : Session} {p : Prop} [Decidable p]
    (hs : x.state = if p then .readChecksum else .readPayload) : PairStillReset x := by
  split at hs
  · exact pairStillReset_of_state (by simp [hs]) (by simp [hs])
  · exact pairStillReset_of_state (by simp [hs]) (by simp [hs])

/-- Once a length is accepted, the parser looks for the next header only after an event. -/
theorem feedStep_keeps_pairStillReset {mp : Fin 256} {free : Nat → Byte} {b : Byte} {x y : Session} {r : Response}
    (hx : PairStillReset x) (h : feedStep mp free b x = .ok (y, r)) (hr : r.kind = .ok) : PairStillReset y := by
  rcases feedStep_cases h with ⟨hs, -, rfl, -⟩ | ⟨-, -, rfl, -⟩ | ⟨-, -, rfl, -⟩ | ⟨hs, -, rfl, -⟩ | ⟨-, rfl, -⟩ |
    ⟨-, -, rfl, -⟩ | ⟨-, -, -, -, rfl⟩ | ⟨-, -, -, -, rfl⟩
  · exact fun _ => hx (.inl hs)
  · exact hx
  · exact pairStillReset_of_state nofun nofun
  · exact fun _ => hx (.inr hs)
  · exact pairStillReset_of_afterCommand rfl
  · exact pairStillReset_of_afterCommand rfl
  · cases hr
  · cases hr

theorem feedList_keeps_pairStillReset {mp : Fin 256} {free : Nat → Byte} {bs : List Byte} {x y : Session}
    {rs : List Response} (hx : PairStillReset x) (h : feedList mp free bs x = .ok (y, rs)) (hrs : ∀ r ∈ rs, r.kind = .ok) :
    PairStillReset y := by
  induction bs generalizing x rs with
  | nil =>
    cases h
    exact hx
  | cons b bs ih =>
    obtain ⟨z, r, rs', hstep, hrest, rfl⟩ := feedList_cons_inv h
    obtain ⟨hr, hrs'⟩ := List.forall_mem_cons.1 hrs
    exact ih (feedStep_keeps_pairStillReset hx hstep hr) hrest hrs'

/-! Through a frame. -/

section
variable {mp : Fin 256} {free : Nat → Byte}

theorem feedList_singleton {b : Byte} {x y : Session} {r : Response} (h : feedStep mp free b x = .ok (y, r)) :
    feedList mp free [b] x = .ok (y, [r]) := feedList_cons h rfl

/-- Payload bytes, no more than are missing, leave the pending pair alone. -/
theorem feedList_payload_keeps_pair (q : List Byte) {x : Session}
    (hs : x.state = if x.writeIndex = x.pendingLength then .readChecksum else .readPayload)
    (hlen : x.writeIndex.toNat + q.length ≤ x.pendingLength.toNat) (hmax : x.pendingLength.toNat ≤ mp.val) :
    ∃ y rs, feedList mp free q x = .ok (y, rs) ∧ y.pendingLength = x.pendingLength ∧
      y.pendingCommand = x.pendingCommand := by
  induction q generalizing x with
  | nil => exact ⟨x, [], rfl, rfl, rfl⟩
  | cons b q ih =>
    rw [List.length_cons] at hlen
    have hlt : x.writeIndex.toNat < x.pendingLength.toNat := by omega
    have hmissing : x.writeIndex ≠ x.pendingLength := fun e => absurd (congrArg BitVec.toNat e) (Nat.ne_of_lt hlt)
    have hsucc : (x.writeIndex + 1).toNat = x.writeIndex.toNat + 1 := by bv_omega
    rw [if_neg hmissing] at hs
    obtain ⟨y, rs, hrest, hpair⟩ := ih (x := { x with
      buf := memWrite x.buf x.writeIndex.toNat b, writeIndex := x.writeIndex + 1,
      state := if x.writeIndex + 1 = x.pendingLength then .readChecksum else .readPayload })
      rfl (by simp only [hsucc]; omega) hmax
    exact ⟨y, _, feedList_cons (feedStep_readPayload hs (Nat.lt_of_lt_of_le hlt hmax)) hrest, hpair⟩

variable {l c : Byte} {x : Session}

/-- From the command byte to the checksum byte the pending pair is the new frame's. -/
theorem feedList_frame_body_pair {q : List Byte} (hs : x.state = .waitHeader) (hl : l.toNat ≤ mp.val)
    (hq : q.length ≤ l.toNat) :
    ∃ y rs, feedList mp free ([0xAF, l, c] ++ q) x = .ok (y, rs) ∧ y.pendingLength = l ∧ y.pendingCommand = c := by
  obtain ⟨y, rs, hpayload, hpair⟩ := feedList_payload_keeps_pair (free := free) q (mp := mp) (x := { x with
    writeIndex := 0, pendingLength := l, pendingCommand := c, state := if l = 0 then .readChecksum else .readPayload })
    (by simp only [eq_comm]) (by simpa using hq) hl
  exact ⟨y, _, feedList_cons (feedStep_header hs) (feedList_cons (feedStep_lengthWithin rfl hl)
    (feedList_cons (feedStep_command rfl) hpayload)), hpair⟩

/-- A checksum byte, matching or not, leaves the pending pair alone and returns to `WaitHeader`. -/
theorem checksumOutcome_pair (chk : Byte) (p : List Byte) (b : Byte) (x : Session) :
    (checksumOutcome chk p b x).1.state = .waitHeader ∧
      (checksumOutcome chk p b x).1.pendingLength = x.pendingLength ∧
      (checksumOutcome chk p b x).1.pendingCommand = x.pendingCommand := by
  by_cases hb : b = chk
  · rw [checksumOutcome_match x hb]
    exact ⟨rfl, rfl, rfl⟩
  · rw [checksumOutcome_mismatch x hb]
    exact ⟨rfl, rfl, rfl⟩

/-- After a whole frame, valid or not, and noise, the pending pair is that frame's. -/
theorem feedList_frame_noise_pair {k : Byte} {q noise : List Byte} (hs : x.state = .waitHeader) (hl : l.toNat ≤ mp.val)
    (hq : q.length = l.toNat) (hnoise : 0xAF ∉ noise) :
    ∃ y rs, feedList mp free ([0xAF, l, c] ++ q ++ [k] ++ noise) x = .ok (y, rs) ∧ y.pendingLength = l ∧
      y.pendingCommand = c := by
  obtain ⟨hwait, hpair⟩ := checksumOutcome_pair (xorReduce ([0xAF, l, c] ++ q)) q k
    { received x l c q with state := .readChecksum }
  exact ⟨_, _, feedList_append (feedList_frame k hs hl hq rfl) (feedList_noise hwait hnoise), hpair⟩

end

/-- Settles O47: only an accepted length and a command write the pending pair, so the pair read is that of the rows of the
table passed through. -/
theorem rdLastByTimeOfReading : Obligations.RdLastByTimeOfReading := by
  refine ⟨fun s t sid sl sl' bs rs hlive hreset hrun hlive' hstate hresp hrs => ?_,
    fun s sid sl hlive hs => ⟨?_, ?_, ?_, ?_, ?_⟩⟩
  · obtain ⟨y, rs', hlist, rfl⟩ := feedList_of_runFeeds hlive hrun
    obtain rfl := Option.some.inj ((liveSlot?_afterFeeds hlive).symm.trans hlive')
    obtain rfl : rs' = rs := List.append_cancel_left hresp
    have hpair := feedList_keeps_pairStillReset (hreset ▸ fun _ => ⟨rfl, rfl⟩) hlist hrs
    obtain ⟨hlen, hcmd⟩ := hpair hstate
    exact rdLastReads_of_feedList hlive hlist hlen hcmd hrun
  · intro t hrun
    have hlist := feedList_singleton (mp := s.maxPayload) (free := freeBuf sid sl) (feedStep_header hs)
    exact rdLastReads_of_feedList hlive hlist rfl rfl hrun
  · intro t l hl hrun
    have hlist := feedList_cons (free := freeBuf sid sl) (feedStep_header hs)
      (feedList_singleton (feedStep_lengthAbove rfl hl))
    exact rdLastReads_of_feedList hlive hlist rfl rfl hrun
  · intro t l hl hrun
    have hlist := feedList_cons (free := freeBuf sid sl) (feedStep_header hs)
      (feedList_singleton (feedStep_lengthWithin rfl hl))
    exact rdLastReads_of_feedList hlive hlist rfl rfl hrun
  · intro t l c q hl hq hrun
    obtain ⟨y, rs, hlist, hlen, hcmd⟩ := feedList_frame_body_pair hs hl hq
    exact rdLastReads_of_feedList hlive hlist hlen hcmd hrun
  · intro t l c k q noise hl hq hnoise hrun
    obtain ⟨y, rs, hlist, hlen, hcmd⟩ := feedList_frame_noise_pair hs hl hq hnoise
    exact rdLastReads_of_feedList hlive hlist hlen hcmd hrun

end Sys2Proof.Proofs
end

section
/-! PROOFS. One operation reports at most one condition, in the order of 60_exceptions.md R148. -/

namespace Sys2Proof.Proofs

open Sys2Proof Sys2Proof.Machine

/-- Only the checksum byte raises an event (42_parser.md R117). -/
theorem feedStep_noEvent_of_ne_readChecksum {mp : Fin 256} {free : Nat → Byte} {b : Byte} {x y : Session} {r : Response}
    (h : feedStep mp free b x = .ok (y, r)) (hs : x.state ≠ .readChecksum) : r = noEvent := by
  rcases feedStep_response_cases h with ⟨-, hr⟩ | ⟨hchk, -⟩ | ⟨hchk, -⟩
  · exact hr
  · exact absurd hchk hs
  · exact absurd hchk hs

/-- Settles O49: what does not decode is answered before anything else is looked at; PACK_VAR checks the size first; and a
`FEED` delivers the response of one transition, which outside `ReadChecksum`, so in `ReadLength`, is `NoEvent`. -/
theorem oneConditionPerOperation : Obligations.OneConditionPerOperation := by
  refine ⟨fun s r rest e hq he => (step_request hq).trans (serveRequest_of_error he),
    fun c p o s hlong _ => exec_packVar_of_long c o hlong, fun s t sid b sl hl h => ?_⟩
  obtain ⟨y, r, hstep, rfl⟩ := exec_feed_next hl h
  refine ⟨r, rfl, fun hs _ => ?_, fun hs => ?_⟩
  · exact feedStep_noEvent_of_ne_readChecksum hstep (by simp [hs])
  · obtain rfl := feedStep_noEvent_of_ne_readChecksum hstep hs
    exact ⟨by simp [noEvent], by simp [noEvent]⟩

end Sys2Proof.Proofs
end

section
/-! PROOFS. `RESET(sid)` sets the session it names and nothing else (70_reset_and_hazards.md R166), no request resets a
session (R167), and a session that has not been reset is refused (R169). -/

namespace Sys2Proof.Proofs

open Sys2Proof Sys2Proof.Machine

/-! What a reset does. -/

theorem step_reset {s : State} {sid : Nat} {rest : List HostAction} (h : s.inbox = .reset sid :: rest) :
    step s = resetSession sid { s with inbox := rest } := by simp only [step, nextAction, h, perform]

theorem resetSession_of_lt {sid : Nat} {s : State} (h : sid < s.nSessions) :
    resetSession sid s = .next { s with slots := s.slots.modify sid Slot.afterReset } := if_pos h

theorem resetSession_next {sid : Nat} {s t : State} (h : resetSession sid s = .next t) :
    t = { s with slots := s.slots.modify sid Slot.afterReset } := by
  rw [resetSession] at h
  split at h
  · cases h; rfl
  · cases h

theorem modify_afterReset_same {slots : List Slot} {sid : Nat} {sl : Slot} (h : slots[sid]? = some sl) :
    (slots.modify sid Slot.afterReset)[sid]? = some ⟨sl.resets + 1, Session.reset⟩ := by simp [h, Slot.afterReset]

theorem modify_afterReset_other (slots : List Slot) {sid j : Nat} (h : j ≠ sid) :
    (slots.modify sid Slot.afterReset)[j]? = slots[j]? := List.getElem?_modify_ne _ _ (Ne.symm h)

/-- Power-on is one reset of every session (70_reset_and_hazards.md R166; assumption log 12). -/
theorem eq_of_mem_powerOn_slots {sl : Slot} (h : sl ∈ State.reset.slots) : sl = ⟨1, Session.reset⟩ :=
  List.eq_of_mem_replicate h

/-! What a request leaves of a session. -/

/-- Only the mismatch row of the checksum byte writes the error counter (42_parser.md R116). -/
theorem feedStep_checksumErrorCount {mp : Fin 256} {free : Nat → Byte} {b : Byte} {x y : Session} {r : Response}
    (h : feedStep mp free b x = .ok (y, r)) :
    y.checksumErrorCount = x.checksumErrorCount ∨
      (y.checksumErrorCount = x.checksumErrorCount + 1 ∧ x.state = .readChecksum) := by
  rcases feedStep_cases h with ⟨-, -, rfl, -⟩ | ⟨-, -, rfl, -⟩ | ⟨-, -, rfl, -⟩ | ⟨-, -, rfl, -⟩ | ⟨-, rfl, -⟩ |
    ⟨-, -, rfl, -⟩ | ⟨-, -, -, rfl, -⟩ | ⟨hs, -, -, rfl, -⟩
  · exact .inl rfl
  · exact .inl rfl
  · exact .inl rfl
  · exact .inl rfl
  · exact .inl rfl
  · exact .inl rfl
  · exact .inl rfl
  · exact .inr ⟨rfl, hs⟩

/-- What an operation leaves of a slot: the whole of it, or, for a `FEED` to that session, the reset count and the
registers after one transition. -/
theorem exec_slot_cases {i : Instr} {s t : State} (h : exec i s = .next t) {j : Nat} {sl : Slot}
    (hj : s.slots[j]? = some sl) :
    t.slots[j]? = some sl ∨
      ∃ sid b y r, i = .feed sid b ∧ sid.toNat = j ∧ t.slots[j]? = some ⟨sl.resets, y⟩ ∧
        feedStep s.maxPayload (freeBuf sid sl) b sl.session = .ok (y, r) := by
  rcases exec_cases h with ⟨sid, b, sl', y, r, rfl, hlive, hstep, rfl⟩ | ⟨r, rfl⟩ | ⟨o, f, -, -, rfl⟩
  · by_cases hsid : j = sid.toNat
    · subst hsid
      obtain ⟨hslot, -⟩ := liveSlot?_eq_some.1 hlive
      obtain rfl := Option.some.inj (hj.symm.trans hslot)
      exact .inr ⟨sid, b, y, r, rfl, rfl, setSession_slot_same sid y hslot, hstep⟩
    · exact .inl ((setSession_slot_other sid y s hsid).trans hj)
  · exact .inl hj
  · exact .inl hj

/-- The same of a request, by what it decodes to; one that does not decode leaves every slot. -/
theorem serveRequest_slot_cases {q : Request} {s t : State} (h : serveRequest q s = .next t) {j : Nat} {sl : Slot}
    (hj : s.slots[j]? = some sl) :
    t.slots[j]? = some sl ∨
      ∃ sid b y r, decode s.nSessions q = .ok (.feed sid b) ∧ sid.toNat = j ∧ t.slots[j]? = some ⟨sl.resets, y⟩ ∧
        feedStep s.maxPayload (freeBuf sid sl) b sl.session = .ok (y, r) := by
  cases hd : decode s.nSessions q with
  | error e =>
    rw [serveRequest_of_error hd] at h
    cases h
    exact .inl hj
  | ok i =>
    rw [serveRequest_of_ok hd] at h
    obtain hkept | ⟨sid, b, y, r, rfl, hfed⟩ := exec_slot_cases h hj
    · exact .inl hkept
    · exact .inr ⟨sid, b, y, r, rfl, hfed⟩

/-- Settles O12: a reset modifies one place of the slot list; a request changes a slot by a transition of its session at
most, which keeps the reset count and moves the counter only in `ReadChecksum`. -/
theorem onlyResetResetsASession : Obligations.OnlyResetResetsASession := by
  refine ⟨fun s t sid rest hq hstep j hj => ?_, fun s t q rest hq hstep j sl hslot => ?_⟩
  · rw [step_reset hq] at hstep
    obtain rfl := resetSession_next hstep
    exact modify_afterReset_other s.slots hj
  · rw [step_request hq] at hstep
    obtain hkept | ⟨sid, b, y, r, hd, hsid, hfed, htrans⟩ := serveRequest_slot_cases hstep hslot
    · exact ⟨sl, hkept, rfl, .inl rfl⟩
    · exact ⟨_, hfed, rfl, (feedStep_checksumErrorCount htrans).imp_right fun ⟨hcount, hs⟩ =>
        ⟨hcount, sid, b, hd, hsid, hs⟩⟩

/-- Settles O11: a reset of a session the block has replaces its slot by the reset registers and writes no other field. -/
theorem hostResetSetsEveryRegister : Obligations.HostResetSetsEveryRegister := by
  refine ⟨fun s sid rest hq hsid => ?_, fun sl hsl => ⟨0, eq_of_mem_powerOn_slots hsl⟩⟩
  have hslot : s.slots[sid]? = some s.slots[sid] := List.getElem?_eq_getElem hsid
  have hreset := resetSession_of_lt (s := { s with inbox := rest }) hsid
  exact ⟨_, _, (step_reset hq).trans hreset, modify_afterReset_same hslot, fun _ => modify_afterReset_other s.slots,
    rfl, rfl, rfl, rfl⟩

/-! Sessions never reset. -/

theorem withSession_of_notReset {sid : Byte} {s : State} {sl : Slot} (h : s.slots[sid.toNat]? = some sl)
    (h0 : sl.resets = 0) (k : Slot → Result) : withSession sid s k = .refused .sessionNotReset := by
  simp only [withSession, h, if_pos h0]

/-- `FEED` and the accessors all look their session up first. -/
theorem exec_eq_withSession {i : Instr} {sid : Byte} (hi : i.session? = some sid) (s : State) :
    ∃ k, exec i s = withSession sid s k := by
  cases i with
  | feed => cases hi; exact ⟨_, rfl⟩
  | rdConnected => cases hi; exact ⟨_, rfl⟩
  | rdErrcnt => cases hi; exact ⟨_, rfl⟩
  | rdLast => cases hi; exact ⟨_, rfl⟩
  | packFixed => cases hi
  | packVar => cases hi
  | checksum => cases hi

/-- The one refusal of a stateless operation is that of `PACK_FIXED` into a small buffer (41_encoder.md R92). -/
theorem exec_stateless_refused {i : Instr} {s : State} {e : Refusal} (hi : i.session? = none)
    (h : exec i s = .refused e) : e = .packFixedOutTooSmall := by
  cases i with
  | packFixed c d o =>
    by_cases hcap : o.cap < 5
    · rw [exec_packFixed_of_small c d s hcap] at h; cases h; rfl
    · rw [exec_packFixed_of_room c d s (Nat.le_of_not_lt hcap)] at h; cases h
  | packVar c p o =>
    by_cases hlong : s.maxPayload.val < p.length
    · rw [exec_packVar_of_long c o hlong] at h; cases h
    · by_cases hcap : o.cap < p.length + 4
      · rw [exec_packVar_of_small c (Nat.le_of_not_lt hlong) hcap] at h; cases h
      · rw [exec_packVar_of_room c (Nat.le_of_not_lt hlong) (Nat.le_of_not_lt hcap)] at h; cases h
  | checksum q => cases h
  | feed => cases hi
  | rdConnected => cases hi
  | rdErrcnt => cases hi
  | rdLast => cases hi

/-- Settles O50: every session operation goes through `withSession`, which refuses; power-on has reset each session once;
and the stateless operations have no refusal but that of a small buffer. -/
theorem sessionNotResetIsRefused : Obligations.SessionNotResetIsRefused := by
  refine ⟨fun i s sid sl hi hslot h0 => ?_, fun sl hsl => ?_, fun i s hi h => ?_⟩
  · obtain ⟨k, hk⟩ := exec_eq_withSession hi s
    exact hk.trans (withSession_of_notReset hslot h0 k)
  · rw [eq_of_mem_powerOn_slots hsl]
    exact Nat.one_ne_zero
  · cases exec_stateless_refused hi h

end Sys2Proof.Proofs
end

section
/-! PROOFS. The encoder and the decoder are inverse, a decoded word matches the one row of its operation, and the assembler
forms are encoded requests (30_encoding.md R58 to R62, R67). -/

namespace Sys2Proof.Proofs

open Sys2Proof Sys2Proof.Machine

/-! The fields of a request whose word is put together from them. -/

section
variable (sid b a op : Byte) (q : List Byte) (o : OutBuf)

@[simp] theorem op_requestWord : (⟨requestWord sid b a op, q, o⟩ : Request).op = op := by
  obtain ⟨hop, -, -, -⟩ := requestWord_fields sid b a op
  exact hop

@[simp] theorem a_requestWord : (⟨requestWord sid b a op, q, o⟩ : Request).a = a := by
  obtain ⟨-, ha, -, -⟩ := requestWord_fields sid b a op
  exact ha

@[simp] theorem b_requestWord : (⟨requestWord sid b a op, q, o⟩ : Request).b = b := by
  obtain ⟨-, -, hb, -⟩ := requestWord_fields sid b a op
  exact hb

@[simp] theorem sid_requestWord : (⟨requestWord sid b a op, q, o⟩ : Request).sid = sid := by
  obtain ⟨-, -, -, hsid⟩ := requestWord_fields sid b a op
  exact hsid

end

theorem word_eq_requestWord (r : Request) : r.word = requestWord r.sid r.b r.a r.op := (requestWord_of_fields r.word).symm

/-! Encode, then decode. -/

theorem wellFormed_iff {n : Nat} {i : Instr} : i.wellFormed n = true ↔ ∀ sid, i.session? = some sid → sid.toNat < n := by
  cases h : i.session? <;> simp [Instr.wellFormed, h]

/-- Settles O1: the fields of the encoded word meet the guards of the operation's row, and give its operands back. -/
theorem decodeOfEncodeIsIdentity : Obligations.DecodeOfEncodeIsIdentity := by
  intro n i hwf
  rw [wellFormed_iff] at hwf
  cases i with
  | feed sid b =>
    have h := decode_feed (n := n) (r := encode (.feed sid b)) (by simp [encode]) (by simp [encode])
      (by simpa [encode] using hwf sid rfl)
    simpa [encode] using h
  | packFixed c d o => exact decode_packFixed_requestWord n c d [] o
  | packVar c p o => exact decode_packVar_requestWord n c p o
  | checksum q => exact decode_checksum_word n q OutBuf.empty
  | rdConnected sid =>
    have h := decode_rdConnected (n := n) (r := encode (.rdConnected sid)) (by simp [encode]) (by simp [encode])
      (by simp [encode]) (by simpa [encode] using hwf sid rfl)
    simpa [encode] using h
  | rdErrcnt sid =>
    have h := decode_rdErrcnt (n := n) (r := encode (.rdErrcnt sid)) (by simp [encode]) (by simp [encode])
      (by simp [encode]) (by simpa [encode] using hwf sid rfl)
    simpa [encode] using h
  | rdLast sid =>
    have h := decode_rdLast (n := n) (r := encode (.rdLast sid)) (by simp [encode]) (by simp [encode])
      (by simp [encode]) (by simpa [encode] using hwf sid rfl)
    simpa [encode] using h

/-- Settles O5: each word is the encoded word of its operation. -/
theorem writtenOutWordsDecode : Obligations.WrittenOutWordsDecode :=
  ⟨decodeOfEncodeIsIdentity 2 (.feed 0x01 0xAF) rfl, decodeOfEncodeIsIdentity 1 (.packFixed 0x01 0x2A ⟨0, 5⟩) rfl,
    decodeOfEncodeIsIdentity 1 (.packVar 0x01 [0x10, 0x20, 0x30] ⟨0, 7⟩) rfl,
    decodeOfEncodeIsIdentity 1 (.checksum [0xFF, 0x0F]) rfl, decodeOfEncodeIsIdentity 1 (.rdConnected 0) rfl,
    decodeOfEncodeIsIdentity 1 (.rdErrcnt 0) rfl, decodeOfEncodeIsIdentity 2 (.rdLast 1) rfl⟩

/-! Decode, then encode. -/

/-- The guards of a row fix the fields that the encoder writes for its operation. -/
theorem encode_word_of_decode_ok {n : Nat} {r : Request} {i : Instr} (h : decode n r = .ok i) :
    (encode i).word = r.word := by
  rw [word_eq_requestWord r]
  rcases decode_ok_cases h with ⟨hop, hb, -, rfl⟩ | ⟨hop, hsid, rfl⟩ | ⟨hop, hb, hsid, rfl⟩ |
    ⟨hop, ha, hb, hsid, rfl⟩ | ⟨hop, ha, hb, -, rfl⟩ | ⟨hop, ha, hb, -, rfl⟩ | ⟨hop, ha, hb, -, rfl⟩
  · rw [encode, hop, hb]
  · rw [encode, hop, hsid]
  · rw [encode, hop, hb, hsid]
  · rw [encode, hop, ha, hb, hsid]
  · rw [encode, hop, ha, hb]
  · rw [encode, hop, ha, hb]
  · rw [encode, hop, ha, hb]

/-- Settles O2: a word is made of its four fields, and the row's guards bound the session number. -/
theorem decodedWordIsTheEncodedWord : Obligations.DecodedWordIsTheEncodedWord :=
  fun _ _ _ h => ⟨encode_word_of_decode_ok h, wellFormed_iff.2 fun _ => session_lt_of_decode_ok h⟩

/-! The opcode table. -/

theorem encode_meets_row (i : Instr) : (encode i).word &&& i.row.mask = i.row.pattern := by
  cases i with
  | feed sid b => exact Laws.TableRow.feed sid b
  | packFixed c d o => exact Laws.TableRow.packFixed c d o
  | packVar c p o => exact Laws.TableRow.packVar c p o
  | checksum q => exact Laws.TableRow.checksum q
  | rdConnected sid => exact Laws.TableRow.rdConnected sid
  | rdErrcnt sid => exact Laws.TableRow.rdErrcnt sid
  | rdLast sid => exact Laws.TableRow.rdLast sid

/-- The seven rows of the opcode table; a row does not depend on the operands. -/
def opcodeTable : List OpRow :=
  [(Instr.feed 0 0).row, (Instr.packFixed 0 0 OutBuf.empty).row, (Instr.packVar 0 [] OutBuf.empty).row,
    (Instr.checksum []).row, (Instr.rdConnected 0).row, (Instr.rdErrcnt 0).row, (Instr.rdLast 0).row]

theorem row_mem_opcodeTable (i : Instr) : i.row ∈ opcodeTable := by
  cases i <;> simp [opcodeTable, Instr.row]

theorem opcodeTable_pattern_injective : ∀ x ∈ opcodeTable, ∀ y ∈ opcodeTable, x.pattern = y.pattern → x = y := by decide

/-- Every mask covers field `op`, and outside that field every pattern is 0. -/
theorem opcodeTable_op_field : ∀ x ∈ opcodeTable, x.mask &&& 0xFF = 0xFF ∧ x.pattern &&& 0xFF = x.pattern := by decide

/-- A word that matches a row has the row's pattern as its op code. -/
theorem pattern_eq_op_of_match {w : Word} {x : OpRow} (hx : x ∈ opcodeTable) (h : w &&& x.mask = x.pattern) :
    x.pattern = w &&& 0xFF := by
  obtain ⟨hmask, hpattern⟩ := opcodeTable_op_field x hx
  calc x.pattern = (w &&& x.mask) &&& 0xFF := by rw [h, hpattern]
    _ = w &&& 0xFF := by rw [BitVec.and_assoc, hmask]

/-- Settles O4: the op code of the word is the pattern of every row it matches, and no two rows have one pattern; a decoded
word is the encoded word of its operation. -/
theorem opcodeRowsAreDisjoint : Obligations.OpcodeRowsAreDisjoint := by
  refine ⟨fun i j w hi hj => ?_, fun n r i h => ?_⟩
  · have hpattern := (pattern_eq_op_of_match (row_mem_opcodeTable i) hi).trans
      (pattern_eq_op_of_match (row_mem_opcodeTable j) hj).symm
    exact opcodeTable_pattern_injective _ (row_mem_opcodeTable i) _ (row_mem_opcodeTable j) hpattern
  · rw [← encode_word_of_decode_ok h]
    exact encode_meets_row i

/-! The assembler forms. -/

theorem asmWord_eq_requestWord (s b a op : Byte) : asmWord s b a op = requestWord s b a op :=
  (Laws.requestWord_eq s b a op).symm

theorem asmFeed_eq_encode (b s : Byte) : asmFeed b s = encode (.feed s b) := by
  rw [asmFeed, asmWord_eq_requestWord, encode]

theorem asmPackVar_eq_encode (c : Byte) (p : List Byte) (m base : Nat) :
    asmPackVar c p m base = encode (.packVar c p ⟨base, m⟩) := by rw [asmPackVar, asmWord_eq_requestWord, encode]

/-- Settles O6: the shift-and-or word of R67 is the word of the four fields, and the pseudo-instructions expand to the forms of
`FEED` and `PACK_VAR`. -/
theorem assemblerFormsAreEncodings : Obligations.AssemblerFormsAreEncodings := by
  refine ⟨asmFeed_eq_encode, fun c d out => ?_, asmPackVar_eq_encode, fun q => ?_, fun s => ?_, fun s => ?_, fun s => ?_,
    fun xs s => ?_, fun c p base => asmPackVar_eq_encode c p _ base⟩
  · rw [asmPackFixed, asmWord_eq_requestWord, encode]
  · have hword : (0x00000004 : Word) = requestWord 0 0 0 0x04 := by decide
    rw [asmChecksum, hword, encode]
  · rw [asmRdConnected, asmWord_eq_requestWord, encode]
  · rw [asmRdErrcnt, asmWord_eq_requestWord, encode]
  · rw [asmRdLast, asmWord_eq_requestWord, encode]
  · exact List.map_congr_left fun b _ => asmFeed_eq_encode b s

end Sys2Proof.Proofs
end

section
/-! PROOFS. A step performs one host action, made of operations, `IllegalRequest` answers and resets: what these keep, every
step keeps (10_state.md R28, 20_memory.md section 4), and no condition of the block is fatal (60_exceptions.md R143). -/

namespace Sys2Proof.Proofs

open Sys2Proof Sys2Proof.Machine

/-! What a step is made of. -/

/-- A relation between states that holds along everything a step is made of. -/
structure StepClosed (R : State → State → Prop) : Prop where
  refl : ∀ s, R s s
  trans : ∀ {s t u}, R s t → R t u → R s u
  op : ∀ {i s t}, exec i s = .next t → R s t
  illegal : ∀ s, R s (respond (bare .illegalRequest) s)
  reset : ∀ s sid, R s { s with slots := s.slots.modify sid Slot.afterReset }
  dequeue : ∀ s q, R s { s with inbox := q }

section
variable {R : State → State → Prop} {s t : State}

theorem StepClosed.of_serveRequest (hR : StepClosed R) {r : Request} (h : serveRequest r s = .next t) : R s t := by
  cases hd : decode s.nSessions r with
  | ok i => exact hR.op ((serveRequest_of_ok hd).symm.trans h)
  | error e =>
    rw [serveRequest_of_error hd] at h
    cases h
    exact hR.illegal s

theorem StepClosed.of_serveAll (hR : StepClosed R) {rs : List Request} (h : serveAll rs s = .next t) : R s t := by
  induction rs generalizing s with
  | nil =>
    cases h
    exact hR.refl _
  | cons r rs ih =>
    obtain ⟨u, hu, hrest⟩ := serveAll_cons_inv h
    exact hR.trans (hR.of_serveRequest hu) (ih hrest)

/-- Overlapping requests that are not refused are served in the order listed (assumption log 7). -/
theorem serveConcurrent_of_served {rs : List Request}
    (h : overlapRefusal (rs.filterMap fun r => (decode s.nSessions r).toOption) = none) :
    serveConcurrent rs s = serveAll rs s := by simp only [serveConcurrent, h]

theorem serveConcurrent_cases (rs : List Request) (s : State) :
    (∃ e, serveConcurrent rs s = .refused e) ∨
    (overlapRefusal (rs.filterMap fun r => (decode s.nSessions r).toOption) = none ∧
      serveConcurrent rs s = serveAll rs s) := by
  cases h : overlapRefusal (rs.filterMap fun r => (decode s.nSessions r).toOption) with
  | some e => exact .inl ⟨e, serveConcurrent_refused h⟩
  | none => exact .inr ⟨rfl, serveConcurrent_of_served h⟩

theorem StepClosed.of_perform (hR : StepClosed R) {a : HostAction} (h : perform a s = .next t) : R s t := by
  cases a with
  | request r => exact hR.of_serveRequest h
  | concurrent rs =>
    obtain ⟨e, he⟩ | ⟨-, he⟩ := serveConcurrent_cases rs s
    · cases he.symm.trans h
    · exact hR.of_serveAll (he.symm.trans h)
  | reset sid =>
    obtain rfl := resetSession_next h
    exact hR.reset s sid

theorem step_cons {a : HostAction} {rest : List HostAction} (h : s.inbox = a :: rest) :
    step s = perform a { s with inbox := rest } := by simp only [step, nextAction, h]

/-- A step idles, or takes the oldest action off the queue and performs it. -/
theorem StepClosed.of_step (hR : StepClosed R) (h : step s = .next t) : R s t := by
  cases hq : s.inbox with
  | nil =>
    obtain rfl := Host.Outcome.next.inj ((step_idle hq).symm.trans h)
    exact hR.refl s
  | cons a rest => exact hR.trans (hR.dequeue s rest) (hR.of_perform ((step_cons hq).symm.trans h))

end

/-! The record and the parameters. -/

/-- The record of `s` begins that of `t`, and the parameters are the same. -/
def Extends (s t : State) : Prop :=
  (∃ rs, t.responses = s.responses ++ rs) ∧ t.maxPayload = s.maxPayload ∧ t.nSessions = s.nSessions

theorem extends_refl (s : State) : Extends s s := ⟨⟨[], (List.append_nil _).symm⟩, rfl, rfl⟩

theorem Extends.trans {s t u : State} (h : Extends s t) (h' : Extends t u) : Extends s u := by
  obtain ⟨⟨rs, hrs⟩, hmax, hn⟩ := h
  obtain ⟨⟨rs', hrs'⟩, hmax', hn'⟩ := h'
  exact ⟨⟨rs ++ rs', by rw [hrs', hrs, List.append_assoc]⟩, hmax'.trans hmax, hn'.trans hn⟩

theorem exec_extends {i : Instr} {s t : State} (h : exec i s = .next t) : Extends s t := by
  obtain ⟨r, hr⟩ := exec_next_responses h
  exact ⟨⟨[r], hr⟩, exec_next_maxPayload h, exec_next_nSessions h⟩

theorem stepClosed_extends : StepClosed Extends where
  refl := extends_refl
  trans := Extends.trans
  op := exec_extends
  illegal _ := ⟨⟨_, rfl⟩, rfl, rfl⟩
  reset _ _ := ⟨⟨[], (List.append_nil _).symm⟩, rfl, List.length_modify _ _ _⟩
  dequeue s _ := extends_refl s

/-- Settles O54: an operation and an `IllegalRequest` answer add one response, a reset adds none. -/
theorem pastResponsesAndParametersPersist : Obligations.PastResponsesAndParametersPersist :=
  fun _ _ h => stepClosed_extends.of_step h

/-! The invariant, slot by slot. -/

/-- What the machine's invariant asks of one slot. -/
def SlotInv (mp : Fin 256) (sl : Slot) : Prop := sl.session.buf.wf ∧ (sl.resets ≠ 0 → SessionInv mp sl.session)

theorem stateInv_iff {s : State} : StateInv s ↔ s.out.wf ∧ ∀ sl ∈ s.slots, SlotInv s.maxPayload sl := by
  simp only [StateInv, SlotInv, forall_and]

theorem slotInv_reset (mp : Fin 256) (k : Nat) : SlotInv mp ⟨k, Session.reset⟩ :=
  ⟨List.Pairwise.nil, fun _ => ⟨Nat.zero_le _, Nat.zero_le _, statePromise_waitHeader rfl, fun _ _ => rfl⟩⟩

/-- Settles O55: every slot is a session after reset, and `OUT` lists nothing. -/
theorem resetSatisfiesInvariant : Obligations.ResetSatisfiesInvariant := by
  refine stateInv_iff.2 ⟨List.Pairwise.nil, fun sl hsl => ?_⟩
  obtain rfl := eq_of_mem_powerOn_slots hsl
  exact slotInv_reset _ 1

theorem mem_modify {l : List Slot} {j : Nat} {g : Slot → Slot} {sl : Slot} (h : sl ∈ l.modify j g) :
    sl ∈ l ∨ ∃ sl', l[j]? = some sl' ∧ sl = g sl' := by
  obtain ⟨k, hk⟩ := List.mem_iff_getElem?.1 h
  by_cases hj : j = k
  · subst hj
    rw [List.getElem?_modify_eq] at hk
    obtain ⟨sl', hsl', rfl⟩ := Option.map_eq_some_iff.1 hk
    exact .inr ⟨sl', hsl', rfl⟩
  · rw [List.getElem?_modify_ne _ _ hj] at hk
    exact .inl (List.mem_of_getElem? hk)

/-- A change of one slot keeps the invariant when it keeps the slot's. -/
theorem slotInv_modify {mp : Fin 256} {l : List Slot} {j : Nat} {g : Slot → Slot} (h : ∀ sl ∈ l, SlotInv mp sl)
    (hg : ∀ sl, l[j]? = some sl → SlotInv mp (g sl)) : ∀ sl ∈ l.modify j g, SlotInv mp sl := by
  intro sl hsl
  obtain hold | ⟨sl', hsl', rfl⟩ := mem_modify hsl
  · exact h sl hold
  · exact hg sl' hsl'

/-! What keeps the invariant. -/

/-- `BUF` is written by `MemWrite` only (42_parser.md R113). -/
theorem feedStep_keeps_bufWf {mp : Fin 256} {free : Nat → Byte} {b : Byte} {x y : Session} {r : Response}
    (hx : x.buf.wf) (h : feedStep mp free b x = .ok (y, r)) : y.buf.wf := by
  rcases feedStep_cases h with ⟨-, -, rfl, -⟩ | ⟨-, -, rfl, -⟩ | ⟨-, -, rfl, -⟩ | ⟨-, -, rfl, -⟩ | ⟨-, rfl, -⟩ |
    ⟨-, -, rfl, -⟩ | ⟨-, -, -, rfl, -⟩ | ⟨-, -, -, rfl, -⟩
  · exact hx
  · exact hx
  · exact hx
  · exact hx
  · exact hx
  · exact memWrite_wf hx _ b
  · exact hx
  · exact hx

theorem feedStep_keeps_slotInv {mp : Fin 256} {free : Nat → Byte} {b : Byte} {sl : Slot} {y : Session} {r : Response}
    (hsl : SlotInv mp sl) (h : feedStep mp free b sl.session = .ok (y, r)) : SlotInv mp ⟨sl.resets, y⟩ :=
  ⟨feedStep_keeps_bufWf hsl.1 h, fun h0 => feedStep_keeps_sessionInv (hsl.2 h0) h⟩

theorem exec_keeps_stateInv {i : Instr} {s t : State} (hs : StateInv s) (h : exec i s = .next t) : StateInv t := by
  obtain ⟨hout, hslots⟩ := stateInv_iff.1 hs
  rcases exec_cases h with ⟨sid, b, sl, y, r, -, hlive, hstep, rfl⟩ | ⟨r, rfl⟩ | ⟨o, f, -, -, rfl⟩
  · obtain ⟨hslot, -⟩ := liveSlot?_eq_some.1 hlive
    refine stateInv_iff.2 ⟨hout, slotInv_modify hslots fun sl' hsl' => ?_⟩
    obtain rfl := Option.some.inj (hslot.symm.trans hsl')
    exact feedStep_keeps_slotInv (hslots sl (List.mem_of_getElem? hslot)) hstep
  · exact hs
  · exact stateInv_iff.2 ⟨memWriteBytes_wf f hout o.base, hslots⟩

theorem reset_keeps_stateInv {s : State} (hs : StateInv s) (sid : Nat) :
    StateInv { s with slots := s.slots.modify sid Slot.afterReset } := by
  obtain ⟨hout, hslots⟩ := stateInv_iff.1 hs
  exact stateInv_iff.2 ⟨hout, slotInv_modify hslots fun sl _ => slotInv_reset _ (sl.resets + 1)⟩

theorem stepClosed_stateInv : StepClosed fun s t => StateInv s → StateInv t where
  refl _ := id
  trans h h' hs := h' (h hs)
  op h hs := exec_keeps_stateInv hs h
  illegal _ := id
  reset _ sid hs := reset_keeps_stateInv hs sid
  dequeue _ _ := id

/-- Settles O56: an operation changes one slot by a transition or writes a frame by `MemWrite`, a reset leaves its session as
after power-on, and nothing else is written. -/
theorem stepKeepsInvariant : Obligations.StepKeepsInvariant := fun _ _ hs h => stepClosed_stateInv.of_step h hs

/-! Faults. -/

/-- A session operation faults only where its meaning on a live session does. -/
theorem withSession_fault {sid : Byte} {s : State} {k : Slot → Result} {f : Fault} (h : withSession sid s k = .fault f) :
    ∃ sl, liveSlot? sid s = some sl ∧ k sl = .fault f := by
  rcases withSession_cases sid s k with ⟨sl, hlive, e⟩ | ⟨_, _, _, e⟩ | ⟨_, e⟩
  · exact ⟨sl, hlive, e.symm.trans h⟩
  · cases e.symm.trans h
  · cases e.symm.trans h

theorem readSession_ne_fault (sid : Byte) (w : Session → Word) (s : State) (f : Fault) : readSession sid w s ≠ .fault f := by
  intro h
  obtain ⟨sl, -, hsl⟩ := withSession_fault h
  cases hsl

/-- Under the invariant the parser takes every byte, so `FEED` does not fault. -/
theorem exec_feed_ne_fault {sid b : Byte} {s : State} (hs : StateInv s) (f : Fault) : exec (.feed sid b) s ≠ .fault f := by
  intro h
  obtain ⟨sl, hlive, -⟩ := withSession_fault h
  obtain ⟨y, r, hstep⟩ := feedStep_enabled b (sessionInv_of_live hs hlive)
  cases (exec_feed_ok hlive hstep).symm.trans h

theorem exec_ne_fault (i : Instr) {s : State} (hs : StateInv s) (f : Fault) : exec i s ≠ .fault f := by
  cases i with
  | feed sid b => exact exec_feed_ne_fault hs f
  | packFixed c d o =>
    by_cases hcap : o.cap < 5
    · rw [exec_packFixed_of_small c d s hcap]; nofun
    · rw [exec_packFixed_of_room c d s (Nat.le_of_not_lt hcap)]; nofun
  | packVar c p o =>
    by_cases hlong : s.maxPayload.val < p.length
    · rw [exec_packVar_of_long c o hlong]; nofun
    · by_cases hcap : o.cap < p.length + 4
      · rw [exec_packVar_of_small c (Nat.le_of_not_lt hlong) hcap]; nofun
      · rw [exec_packVar_of_room c (Nat.le_of_not_lt hlong) (Nat.le_of_not_lt hcap)]; nofun
  | checksum q => nofun
  | rdConnected sid => exact readSession_ne_fault sid connectedWord s f
  | rdErrcnt sid => exact readSession_ne_fault sid (fun x => x.checksumErrorCount) s f
  | rdLast sid => exact readSession_ne_fault sid (fun x => lengthCommandWord x.pendingLength x.pendingCommand) s f

theorem serveRequest_ne_fault (r : Request) {s : State} (hs : StateInv s) (f : Fault) : serveRequest r s ≠ .fault f := by
  cases hd : decode s.nSessions r with
  | ok i => rw [serveRequest_of_ok hd]; exact exec_ne_fault i hs f
  | error e => rw [serveRequest_of_error hd]; nofun

theorem serveAll_ne_fault (rs : List Request) {s : State} (hs : StateInv s) (f : Fault) : serveAll rs s ≠ .fault f := by
  induction rs generalizing s with
  | nil => nofun
  | cons r rs ih =>
    rw [serveAll]
    split
    · next t ht => exact ih (stepClosed_stateInv.of_serveRequest ht hs)
    · next f' hf => exact absurd hf (serveRequest_ne_fault r hs f')
    · nofun

theorem perform_ne_fault (a : HostAction) {s : State} (hs : StateInv s) (f : Fault) : perform a s ≠ .fault f := by
  cases a with
  | request r => exact serveRequest_ne_fault r hs f
  | concurrent rs =>
    intro h
    obtain ⟨e, he⟩ | ⟨-, he⟩ := serveConcurrent_cases rs s
    · cases he.symm.trans h
    · exact serveAll_ne_fault rs hs f (he.symm.trans h)
  | reset sid =>
    rw [perform, resetSession]
    split
    · nofun
    · nofun

/-- Settles O57: the one fault is an access to `BUF` out of bounds, which the session invariant excludes; it holds of the state
each operation of the step finds. -/
theorem noStepFaultsUnderInvariant : Obligations.NoStepFaultsUnderInvariant := by
  intro s f hs
  cases hq : s.inbox with
  | nil => rw [step_idle hq]; nofun
  | cons a rest => rw [step_cons hq]; exact perform_ne_fault a (stepClosed_stateInv.dequeue s rest hs) f

theorem feedStep_readPayload_fault {mp : Fin 256} {free : Nat → Byte} {b : Byte} {x : Session} (hs : x.state = .readPayload)
    (hge : mp.val ≤ x.writeIndex.toNat) : feedStep mp free b x = .error .bufIndexOutOfRange := by
  simp only [feedStep, hs, readPayloadStep, bufWrite, if_neg (Nat.not_lt.2 hge)]

theorem feedStep_readChecksum_fault {mp : Fin 256} {free : Nat → Byte} {b : Byte} {x : Session} (hs : x.state = .readChecksum)
    (hgt : mp.val < x.pendingLength.toNat) : feedStep mp free b x = .error .bufIndexOutOfRange := by
  simp only [feedStep, hs, readChecksumStep, bufRead, if_neg (Nat.not_le.2 hgt)]

/-- Settles O58: the bound checks of `bufWrite` and `bufRead` fail, and `FEED` passes their fault on. -/
theorem missingBufIndexFaults : Obligations.MissingBufIndexFaults := by
  intro s sid b sl hlive
  refine ⟨fun hs hge => ?_, fun hs hgt => ?_⟩
  · rw [exec_feed_live hlive, feedStep_readPayload_fault hs hge]
  · rw [exec_feed_live hlive, feedStep_readChecksum_fault hs hgt]

end Sys2Proof.Proofs
end

section
/-! PROOFS. Operations on different sessions share no state, and overlapping requests that are served are independent
(20_memory.md R43, R44). -/

namespace Sys2Proof.Proofs

open Sys2Proof Sys2Proof.Machine

/-! Requests that overlap without a conflict. -/

section
variable {i i' : Instr}

theorem sharesSession_comm (i i' : Instr) : sharesSession i i' = sharesSession i' i := by
  cases h : i.session? <;> cases h' : i'.session? <;> simp only [sharesSession, h, h']
  exact Bool.beq_comm

theorem buffersOverlap_comm (o o' : OutBuf) : buffersOverlap o o' = buffersOverlap o' o := by
  rw [Bool.eq_iff_iff]
  simp only [buffersOverlap, Bool.and_eq_true, decide_eq_true_eq]
  tauto

theorem sharesOut_comm (i i' : Instr) : sharesOut i i' = sharesOut i' i := by
  cases h : outBuf? i <;> cases h' : outBuf? i' <;> simp only [sharesOut, h, h']
  exact buffersOverlap_comm _ _

theorem overlapRefusal_pair_comm (i i' : Instr) : overlapRefusal [i, i'] = overlapRefusal [i', i] := by
  simp [overlapRefusal, anyPair, sharesSession_comm i i', sharesOut_comm i i']

theorem overlapRefusal_decoded_comm (n : Nat) (r r' : Request) :
    overlapRefusal ([r, r'].filterMap fun r => (decode n r).toOption) =
      overlapRefusal ([r', r].filterMap fun r => (decode n r).toOption) := by
  cases h : (decode n r).toOption <;> cases h' : (decode n r').toOption <;> simp only [List.filterMap, h, h']
  exact overlapRefusal_pair_comm _ _

variable {n : Nat} {r r' : Request}

/-- Two decoded requests that are served are not two operations on one session. -/
theorem session_ne_of_served (h : overlapRefusal ([r, r'].filterMap fun r => (decode n r).toOption) = none)
    (hr : decode n r = .ok i) (hr' : decode n r' = .ok i') {sid sid' : Byte} (hi : i.session? = some sid)
    (hi' : i'.session? = some sid') : sid ≠ sid' := by
  rintro rfl
  have hpair := decoded_sublist (List.Sublist.refl [r, r']) hr hr'
  cases h.symm.trans (overlapRefusal_of_sharesSession hpair (sharesSession_of_session hi hi'))

/-- Two decoded packs that are served have buffers that do not overlap. -/
theorem buffersOverlap_of_served (h : overlapRefusal ([r, r'].filterMap fun r => (decode n r).toOption) = none)
    (hr : decode n r = .ok i) (hr' : decode n r' = .ok i') {o o' : OutBuf} (ho : outBuf? i = some o)
    (ho' : outBuf? i' = some o') : buffersOverlap o o' = false := by
  by_contra hover
  have hshare : sharesOut i i' = true := by simpa only [sharesOut, ho, ho', Bool.not_eq_false] using hover
  have hpair := decoded_sublist (List.Sublist.refl [r, r']) hr hr'
  obtain he | he := overlapRefusal_of_sharesOut hpair hshare
  · cases h.symm.trans he
  · cases h.symm.trans he

end

/-! Effects at different places. -/

/-- Two effects' writes to `OUT`, if both write, share no address. -/
def WritesApart (w w' : Option (Nat × List Byte)) : Prop :=
  ∀ b f b' f', w = some (b, f) → w' = some (b', f') → f = [] ∨ f' = [] ∨ b + f.length ≤ b' ∨ b' + f'.length ≤ b

theorem writesApart_of_buffers {i i' : Instr} {w w' : Option (Nat × List Byte)} (hw : WritesWithin i w)
    (hw' : WritesWithin i' w')
    (h : ∀ o o', outBuf? i = some o → outBuf? i' = some o' → buffersOverlap o o' = false) : WritesApart w w' := by
  rintro b f b' f' rfl rfl
  obtain hnone | ⟨o, f₁, ho, hcap, heq⟩ := hw
  · cases hnone
  obtain hnone | ⟨o', f₁', ho', hcap', heq'⟩ := hw'
  · cases hnone
  cases heq
  cases heq'
  have hapart := h o o' ho ho'
  simp only [buffersOverlap, Bool.and_eq_false_iff, decide_eq_false_iff_not] at hapart
  simp only [← List.length_eq_zero_iff]
  omega

section
variable {a a' : Response} {k k' : Option Nat} {g g' : Slot → Slot} {w w' : Option (Nat × List Byte)} {s : State}

theorem applyEffect_slots_comm (h : ∀ j, k = some j → k' ≠ some j) :
    (applyEffect a k g w (applyEffect a' k' g' w' s)).slots = (applyEffect a' k' g' w' (applyEffect a k g w s)).slots := by
  cases k with
  | none => rfl
  | some j =>
    cases k' with
    | none => rfl
    | some j' =>
      have hne : j' ≠ j := fun e => h j rfl (congrArg some e)
      exact modify_comm s.slots g' g hne

theorem applyEffect_out_comm (hs : s.out.wf) (h : WritesApart w w') :
    (applyEffect a k g w (applyEffect a' k' g' w' s)).out = (applyEffect a' k' g' w' (applyEffect a k g w s)).out := by
  cases w with
  | none => rfl
  | some bf =>
    obtain ⟨b, f⟩ := bf
    cases w' with
    | none => rfl
    | some bf' =>
      obtain ⟨b', f'⟩ := bf'
      obtain rfl | rfl | hapart := h b f b' f' rfl rfl
      · rfl
      · rfl
      · exact memWriteBytes_comm hs hapart.symm

theorem applyEffect_slot_other {j : Nat} (h : k ≠ some j) : (applyEffect a k g w s).slots[j]? = s.slots[j]? := by
  cases k with
  | none => rfl
  | some i => exact List.getElem?_modify_ne _ _ fun e => h (congrArg some e)

end

/-! Two requests, in either order. -/

theorem serveAll_cons_next {q : Request} {qs : List Request} {s t : State} (h : serveRequest q s = .next t) :
    serveAll (q :: qs) s = serveAll qs t := by rw [serveAll, h]

/-- Two requests that are served change the slots of different sessions, if they change any. -/
theorem slotsApart_of_served {n : Nat} {r r' : Request} {k k' : Option Nat}
    (h : overlapRefusal ([r, r'].filterMap fun r => (decode n r).toOption) = none)
    (hk : k = none ∨ ∃ i sid, decode n r = .ok i ∧ i.session? = some sid ∧ k = some sid.toNat)
    (hk' : k' = none ∨ ∃ i sid, decode n r' = .ok i ∧ i.session? = some sid ∧ k' = some sid.toNat) :
    ∀ j, k = some j → k' ≠ some j := by
  rintro j rfl rfl
  obtain hnone | ⟨i, sid, hr, hi, hj⟩ := hk
  · cases hnone
  obtain hnone | ⟨i', sid', hr', hi', hj'⟩ := hk'
  · cases hnone
  exact byte_toNat_ne (session_ne_of_served h hr hr' hi hi') (Option.some.inj (hj.symm.trans hj'))

theorem writesApart_of_served {n : Nat} {r r' : Request} {w w' : Option (Nat × List Byte)}
    (h : overlapRefusal ([r, r'].filterMap fun r => (decode n r).toOption) = none)
    (hw : w = none ∨ ∃ i, decode n r = .ok i ∧ WritesWithin i w)
    (hw' : w' = none ∨ ∃ i, decode n r' = .ok i ∧ WritesWithin i w') : WritesApart w w' := by
  obtain rfl | ⟨i, hr, hw⟩ := hw
  · nofun
  obtain rfl | ⟨i', hr', hw'⟩ := hw'
  · nofun
  exact writesApart_of_buffers hw hw' fun o o' => buffersOverlap_of_served h hr hr'

/-- Each of two requests that are served has the same effect in the other order, since the other changes nothing it reads; and
the two effects commute. -/
theorem serveAll_pair_comm {s t : State} {r r' : Request} (hout : s.out.wf)
    (hserved : overlapRefusal ([r, r'].filterMap fun r => (decode s.nSessions r).toOption) = none)
    (h : serveAll [r, r'] s = .next t) :
    ∃ u a b, serveAll [r', r] s = .next u ∧ u.slots = t.slots ∧ u.out = t.out ∧ u.maxPayload = t.maxPayload ∧
      u.inbox = t.inbox ∧ t.responses = s.responses ++ [a, b] ∧ u.responses = s.responses ++ [b, a] := by
  obtain ⟨u₁, h₁, h⟩ := serveAll_cons_inv h
  obtain ⟨u₂, h₂, h⟩ := serveAll_cons_inv h
  cases h
  obtain ⟨a, k, g, w, rfl, hk, hw, hserve⟩ := serveRequest_effect h₁
  obtain ⟨b, k', g', w', rfl, hk', hw', hserve'⟩ := serveRequest_effect h₂
  rw [applyEffect_nSessions] at hk' hw'
  have hslots : ∀ j, k = some j → k' ≠ some j := slotsApart_of_served hserved hk hk'
  have hfirst : serveRequest r' s = .next (applyEffect b k' g' w' s) :=
    hserve' s (applyEffect_nSessions a k g w s).symm rfl fun j hj =>
      (applyEffect_slot_other fun e => hslots j e hj).symm
  have hsecond : serveRequest r (applyEffect b k' g' w' s) = .next (applyEffect a k g w (applyEffect b k' g' w' s)) :=
    hserve _ (applyEffect_nSessions b k' g' w' s) rfl fun j hj => applyEffect_slot_other (hslots j hj)
  refine ⟨_, a, b, (serveAll_cons_next hfirst).trans (serveAll_cons_next hsecond), applyEffect_slots_comm hslots,
    applyEffect_out_comm hout (writesApart_of_served hserved hw hw'), rfl, rfl, ?_, ?_⟩
  · exact List.append_assoc _ _ _
  · exact List.append_assoc _ _ _

/-- Settles O52: the test for a conflict does not look at the order, and without a conflict the two effects commute. -/
theorem overlappingOrderIsIrrelevant : Obligations.OverlappingOrderIsIrrelevant := by
  intro s t r r' rest ⟨hout, _⟩ hq hstep
  rw [step_concurrent hq] at hstep
  rw [step_concurrent (s := { s with inbox := .concurrent [r', r] :: rest }) rfl]
  obtain ⟨e, he⟩ | ⟨hserved, hall⟩ := serveConcurrent_cases [r, r'] { s with inbox := rest }
  · cases he.symm.trans hstep
  · obtain ⟨u, a, b, hu, hsame⟩ := serveAll_pair_comm (s := { s with inbox := rest }) hout hserved (hall.symm.trans hstep)
    rw [overlapRefusal_decoded_comm] at hserved
    exact ⟨u, a, b, (serveConcurrent_of_served hserved).trans hu, hsame⟩

/-! A session among others. -/

section
variable {sid : Byte} {i : Instr} {is : List Instr} {r : Response} {rs : List Response}

theorem responsesTo_cons_own (h : i.session? = some sid) :
    responsesTo sid (i :: is) (r :: rs) = r :: responsesTo sid is rs := by simp [responsesTo, h]

theorem responsesTo_cons_other (h : i.session? ≠ some sid) :
    responsesTo sid (i :: is) (r :: rs) = responsesTo sid is rs := by simp [responsesTo, h]

end

/-- The two states give operations on session `sid` the same: MAX_PAYLOAD and the session's slot. -/
def SameFor (sid : Byte) (s s' : State) : Prop :=
  s'.maxPayload = s.maxPayload ∧ s'.slots[sid.toNat]? = s.slots[sid.toNat]?

theorem SameFor.trans {sid : Byte} {s t u : State} (h : SameFor sid s t) (h' : SameFor sid t u) : SameFor sid s u :=
  ⟨h'.1.trans h.1, h'.2.trans h.2⟩

/-- An operation on another session, or on none, changes nothing that session `sid` has. -/
theorem sameFor_of_other {sid : Byte} {i : Instr} {s t : State} (hi : i.session? ≠ some sid) (h : exec i s = .next t) :
    SameFor sid t s := by
  have hfeed : ∀ b, i ≠ .feed sid b := by rintro b rfl; exact hi rfl
  exact ⟨(exec_next_maxPayload h).symm, (exec_keeps_slot hfeed h).symm⟩

/-- An operation on session `sid` does the same in two states that are the same for it. -/
theorem exec_of_sameFor {sid : Byte} {i : Instr} {s s' t : State} (hi : i.session? = some sid) (hsame : SameFor sid s s')
    (h : exec i s = .next t) :
    ∃ t' r, exec i s' = .next t' ∧ t.responses = s.responses ++ [r] ∧ t'.responses = s'.responses ++ [r] ∧
      SameFor sid t t' := by
  obtain ⟨hmax, hslot⟩ := hsame
  obtain ⟨r, g, heffect⟩ := exec_session_effect hi h
  obtain rfl := Host.Outcome.next.inj (h.symm.trans (heffect s rfl rfl))
  refine ⟨_, r, heffect s' hmax hslot, rfl, rfl, hmax, ?_⟩
  simp [applyEffect, hslot]

/-- A run seen by session `sid` is the run of the operations on it, from any state that is the same for it. -/
theorem runInstrs_own (sid : Byte) (is : List Instr) {s s' t : State} (hsame : SameFor sid s s')
    (h : runInstrs is s = .next t) :
    ∃ t' rs, runInstrs (is.filter fun i => i.session? == some sid) s' = .next t' ∧ t.responses = s.responses ++ rs ∧
      rs.length = is.length ∧ t'.responses = s'.responses ++ responsesTo sid is rs ∧ SameFor sid t t' := by
  induction is generalizing s s' with
  | nil =>
    cases h
    exact ⟨s', [], rfl, (List.append_nil _).symm, rfl, (List.append_nil _).symm, hsame⟩
  | cons i is ih =>
    obtain ⟨u, hu, hrest⟩ := runInstrs_cons_inv h
    by_cases hi : i.session? = some sid
    · obtain ⟨u', r, hu', hr, hr', hsame'⟩ := exec_of_sameFor hi hsame hu
      obtain ⟨t', rs, hrun, hrs, hlen, hrs', hend⟩ := ih hsame' hrest
      refine ⟨t', r :: rs, ?_, ?_, congrArg (· + 1) hlen, ?_, hend⟩
      · rw [List.filter_cons_of_pos (by simpa using hi), runInstrs_cons_next hu', hrun]
      · rw [hrs, hr, List.append_assoc, List.singleton_append]
      · rw [hrs', hr', responsesTo_cons_own hi, List.append_assoc, List.singleton_append]
    · obtain ⟨r, hr⟩ := exec_next_responses hu
      obtain ⟨t', rs, hrun, hrs, hlen, hrs', hend⟩ := ih ((sameFor_of_other hi hu).trans hsame) hrest
      refine ⟨t', r :: rs, ?_, ?_, congrArg (· + 1) hlen, ?_, hend⟩
      · rw [List.filter_cons_of_neg (by simpa using hi), hrun]
      · rw [hrs, hr, List.append_assoc, List.singleton_append]
      · rw [hrs', responsesTo_cons_other hi]

/-- Settles O53, by induction over the run: an operation on `sid` does the same in both runs, and any other changes nothing
that `sid` has. -/
theorem sessionsDoNotInterfere : Obligations.SessionsDoNotInterfere := by
  intro is s t sid h
  obtain ⟨t', rs, hrun, hrs, hlen, hrs', -, hslot⟩ := runInstrs_own sid is ⟨rfl, rfl⟩ h
  exact ⟨t', rs, hrun, hrs, hlen, hrs', hslot⟩

end Sys2Proof.Proofs
end

section
/-! PROOFS. Queued requests run in order (20_memory.md section 3), the answers of the stateless operations, the accessors'
registers (43_accessors.md), and the frames of the operations (10_state.md sections 1 to 4, 20_memory.md section 2). -/

namespace Sys2Proof.Proofs

open Sys2Proof Sys2Proof.Machine

/-! The queue. -/

/-- Settles O7: the request is taken off the queue and served, and what decodes is run. -/
theorem stepRunsTheDecodedOperation : Obligations.StepRunsTheDecodedOperation :=
  fun _ _ _ _ hq hd => (step_request hq).trans (serveRequest_of_ok hd)

/-- The outcome with the queue `q` in its state. -/
def withInbox (q : List HostAction) : Result → Result
  | .next t => .next { t with inbox := q }
  | .fault f => .fault f
  | .refused e => .refused e

theorem withSession_withInbox {sid : Byte} {s : State} {q : List HostAction} {k k' : Slot → Result}
    (hk : ∀ sl, k' sl = withInbox q (k sl)) :
    withSession sid { s with inbox := q } k' = withInbox q (withSession sid s k) := by
  simp only [withSession]
  cases s.slots[sid.toNat]? with
  | none => rfl
  | some sl =>
    by_cases h0 : sl.resets = 0
    · simp only [if_pos h0]; rfl
    · simp only [if_neg h0]; exact hk sl

theorem readSession_withInbox (sid : Byte) (w : Session → Word) (s : State) (q : List HostAction) :
    readSession sid w { s with inbox := q } = withInbox q (readSession sid w s) := withSession_withInbox fun _ => rfl

/-- No operation looks at the queue or writes it (assumption log 2). -/
theorem exec_withInbox (i : Instr) (s : State) (q : List HostAction) :
    exec i { s with inbox := q } = withInbox q (exec i s) := by
  cases i with
  | feed sid b =>
    refine withSession_withInbox fun sl => ?_
    cases feedStep s.maxPayload (freeBuf sid sl) b sl.session <;> rfl
  | packFixed c d o =>
    by_cases hcap : o.cap < 5
    · simp only [exec_packFixed_of_small c d _ hcap]; rfl
    · simp only [exec_packFixed_of_room c d _ (Nat.le_of_not_lt hcap)]; rfl
  | packVar c p o =>
    by_cases hlong : s.maxPayload.val < p.length
    · simp only [exec, execPackVar, if_pos hlong]; rfl
    · by_cases hcap : o.cap < p.length + 4
      · simp only [exec, execPackVar, if_neg hlong, if_pos hcap]; rfl
      · simp only [exec, execPackVar, if_neg hlong, if_neg hcap]; rfl
  | checksum _ => rfl
  | rdConnected sid => exact readSession_withInbox sid connectedWord s q
  | rdErrcnt sid => exact readSession_withInbox sid (fun x => x.checksumErrorCount) s q
  | rdLast sid => exact readSession_withInbox sid (fun x => lengthCommandWord x.pendingLength x.pendingCommand) s q

theorem run_succ_of_fault {s : State} {f : Fault} (h : step s = .fault f) (k : Nat) :
    Host.Core.run core (k + 1) s = .fault f := by
  have hstep : core.step s = .fault f := h
  simp only [Host.Core.run, hstep]

theorem run_succ_of_refused {s : State} {e : Refusal} (h : step s = .refused e) (k : Nat) :
    Host.Core.run core (k + 1) s = .refused e := by
  have hstep : core.step s = .refused e := h
  simp only [Host.Core.run, hstep]

/-- Settles O10, by induction over the queued requests: a step runs the oldest one, and the queue it leaves does not matter to
the operation. -/
theorem queuedRequestsRunInOrder : Obligations.QueuedRequestsRunInOrder := by
  intro s rs is rest hq hd
  induction rs generalizing s is with
  | nil =>
    obtain rfl := List.map_eq_nil_iff.1 hd.symm
    obtain rfl : s.inbox = rest := hq
    rfl
  | cons r rs ih =>
    obtain ⟨i, is, rfl, hi, hd⟩ := List.map_eq_cons_iff.1 hd.symm
    have hstep := stepRunsTheDecodedOperation s r _ i hq hi.symm
    rw [exec_withInbox] at hstep
    rw [runInstrs_cons, exec_withInbox]
    cases hexec : exec i s with
    | next t =>
      rw [hexec] at hstep
      rw [List.length_cons, run_succ_of_step hstep]
      refine ih _ is rfl ?_
      rw [inbox_nSessions, exec_next_nSessions hexec, hd]
    | fault f =>
      rw [hexec] at hstep
      exact run_succ_of_fault hstep _
    | refused e =>
      rw [hexec] at hstep
      exact run_succ_of_refused hstep _

/-! What the stateless operations and the accessors answer. -/

/-- Settles O24: a stateless operation has one effect in every state with that MAX_PAYLOAD, and its response is part of it. -/
theorem statelessAnswersDependOnOperandsOnly : Obligations.StatelessAnswersDependOnOperandsOnly := by
  intro i s s' t hi hmax h
  obtain ⟨r, w, -, heffect⟩ := exec_stateless_effect hi h
  obtain rfl := Host.Outcome.next.inj (h.symm.trans (heffect s rfl))
  exact ⟨_, r, heffect s' hmax.symm, rfl, rfl⟩

/-- Settles O45: an accessor of a live session answers the word it reads. -/
theorem accessorsAnswerTheirRegisters : Obligations.AccessorsAnswerTheirRegisters :=
  fun _ _ _ hlive => ⟨readSession_live (w := connectedWord) hlive,
    readSession_live (w := fun x => x.checksumErrorCount) hlive,
    readSession_live (w := fun x => lengthCommandWord x.pendingLength x.pendingCommand) hlive⟩

/-! The writers of a session's registers. -/

theorem memWrite_changes {m : Memory} {n k : Nat} {v : Byte} (h : memRead (memWrite m n v) k ≠ memRead m k) :
    k = n ∧ memRead (memWrite m n v) k = some v := by
  by_cases hk : k = n
  · subst hk; exact ⟨rfl, memRead_memWrite_same m k v⟩
  · exact absurd (memRead_memWrite_other m v hk) h

/-- From `x` to `y` each register changed only where its rule of 10_state.md says it may, and to the value it says. -/
def RegistersWritten (mp : Fin 256) (b : Byte) (x y : Session) : Prop :=
  (y.pendingLength ≠ x.pendingLength → x.state = .readLength ∧ b.toNat ≤ mp.val ∧ y.pendingLength = b) ∧
  (y.pendingCommand ≠ x.pendingCommand → x.state = .readCommand ∧ y.pendingCommand = b) ∧
  (y.writeIndex ≠ x.writeIndex →
    (x.state = .waitHeader ∧ b = 0xAF ∧ y.writeIndex = 0) ∨
    (x.state = .readLength ∧ b.toNat ≤ mp.val ∧ y.writeIndex = 0) ∨
    (x.state = .readPayload ∧ y.writeIndex = x.writeIndex + 1)) ∧
  (y.connected ≠ x.connected → x.state = .readChecksum) ∧
  (y.checksumErrorCount ≠ x.checksumErrorCount →
    x.state = .readChecksum ∧ y.checksumErrorCount = x.checksumErrorCount + 1 ∧ y.connected = false) ∧
  ∀ k, memRead y.buf k ≠ memRead x.buf k → x.state = .readPayload ∧ k = x.writeIndex.toNat ∧ memRead y.buf k = some b

theorem feedStep_registersWritten {mp : Fin 256} {free : Nat → Byte} {b : Byte} {x y : Session} {r : Response}
    (h : feedStep mp free b x = .ok (y, r)) : RegistersWritten mp b x y := by
  rcases feedStep_cases h with ⟨hs, hb, rfl, -⟩ | ⟨-, -, rfl, -⟩ | ⟨hs, hb, rfl, -⟩ | ⟨-, -, rfl, -⟩ | ⟨hs, rfl, -⟩ |
    ⟨hs, -, rfl, -⟩ | ⟨hs, -, -, rfl, -⟩ | ⟨hs, -, -, rfl, -⟩
  · simp [RegistersWritten, hs, hb]
  · simp [RegistersWritten]
  · simp [RegistersWritten, hs, hb]
  · simp [RegistersWritten]
  · simp [RegistersWritten, hs]
  · simpa [RegistersWritten, hs] using fun k => memWrite_changes
  · simp [RegistersWritten, hs]
  · simp [RegistersWritten, hs]

/-- Settles O34: a `FEED` on a live session is one transition, and each row of the transition table writes the registers of its
parser state. -/
theorem feedWritesOnlyTheRegistersOfItsState : Obligations.FeedWritesOnlyTheRegistersOfItsState := by
  intro s t sid b sl hlive h
  obtain ⟨y, r, hstep, rfl⟩ := exec_feed_next hlive h
  exact ⟨⟨sl.resets, y⟩, liveSlot?_setSession hlive, rfl, feedStep_registersWritten hstep⟩

/-! Frames. -/

/-- Settles O35: a `FEED` writes its session's registers and the record at most. -/
theorem feedTouchesOnlyItsSession : Obligations.FeedTouchesOnlyItsSession := by
  intro s t sid b h
  rcases exec_cases h with ⟨sid', b', sl, y, r, hi, -, -, rfl⟩ | ⟨r, rfl⟩ | ⟨o, f, ho, -, -⟩
  · cases hi
    exact ⟨fun j hj => setSession_slot_other sid y s hj, setSession_nSessions sid y s, fun _ => rfl, rfl, rfl, r, rfl⟩
  · exact ⟨fun _ _ => rfl, rfl, fun _ => rfl, rfl, rfl, r, rfl⟩
  · cases ho

theorem isPack_of_outBuf? {i : Instr} {o : OutBuf} (h : outBuf? i = some o) : IsPack i o := by
  cases i with
  | packFixed c d _ => cases h; exact .inl ⟨c, d, rfl⟩
  | packVar c p _ => cases h; exact .inr ⟨c, p, rfl⟩
  | feed => cases h
  | checksum => cases h
  | rdConnected => cases h
  | rdErrcnt => cases h
  | rdLast => cases h

/-- Settles O36: every other operation writes the record, and a pack its output buffer. -/
theorem otherOperationsLeaveTheSessions : Obligations.OtherOperationsLeaveTheSessions := by
  intro i s t hfeed h
  rcases exec_cases h with ⟨sid, b, sl, y, r, hi, -, -, -⟩ | ⟨r, rfl⟩ | ⟨o, f, ho, -, rfl⟩
  · exact absurd hi (hfeed sid b)
  · exact ⟨rfl, rfl, rfl, fun _ _ => rfl, r, rfl⟩
  · exact ⟨rfl, rfl, rfl, fun hpack => absurd (isPack_of_outBuf? ho) (hpack o), _, rfl⟩

end Sys2Proof.Proofs
end
